-- ==== Sys2Proof/Word.lean ====
section
/-! DEFINITION. The machine's word, its register number and its text (00_scope.md R8, R20, R21). -/

namespace Sys2Proof

/-- `Word32` of 00_scope.md R21: registers, memory cells and machine words are 32 bits, read as
two's complement by `BitVec.toInt` (R8; the width is decision D1 of 92_eei_decisions.md). -/
abbrev Word := BitVec 32

/-- A register number: eight registers, numbered 0 to 7 (10_state.md R30). -/
abbrev Reg := Fin 8

/-- A text string of the encoder block or of an image line, as its characters (30_encoding.md R94). -/
abbrev Text := List Char

end Sys2Proof
end

