-- ==== Sys2Proof/Config.lean ====
section
/-! DEFINITION. The implementation parameters of 00_scope.md R7: the two OPEN ones are the fields of
`Config`, every other row is a constant. -/

namespace Sys2Proof

/-- The OPEN parameters, which a model takes as arguments (00_scope.md R7). -/
structure Config where
  /-- `MAX_CYCLES`: the optional cycle limit of 60_exceptions.md R194; `none` is no cap (D17). -/
  maxCycles : Option Nat := none
  /-- `MAX_LINE_LENGTH`: the Line Reader's bound on a source line (60_exceptions.md R188; D21). -/
  maxLineLength : Nat
  deriving DecidableEq, Repr

/-- `MEM_CAPACITY` of 00_scope.md R7 and 20_memory.md R61, in words. -/
def Config.memCapacity : Nat := 65536

/-- `OFFSET_MIN` of 00_scope.md R7. -/
def Config.offsetMin : Int := -32768

/-- `OFFSET_MAX` of 00_scope.md R7. -/
def Config.offsetMax : Int := 32767

/-- The least value of a `Word32` (00_scope.md R21). -/
def Config.wordMin : Int := -2147483648

/-- The greatest value of a `Word32` (00_scope.md R21). -/
def Config.wordMax : Int := 2147483647

end Sys2Proof
end

