-- ==== Sys2Proof/Syntax.lean ====
section
/-! DEFINITION. The eight instructions (00_scope.md R2; spec/opcode_table.json), one constructor a row. -/

namespace Sys2Proof

/-- An instruction with its operands in the order the assembler writes them (30_encoding.md R122).
`offset` is the signed number `sext_16(offset)` that the execute engine uses (30_encoding.md R89). -/
inductive Instr where
  /-- 41_alu.md R140 -/
  | add (regA regB destReg : Reg)
  /-- 41_alu.md R141 -/
  | nor (regA regB destReg : Reg)
  /-- 42_load_store.md R150 -/
  | lw (regA regB : Reg) (offset : Int)
  /-- 42_load_store.md R151 -/
  | sw (regA regB : Reg) (offset : Int)
  /-- 43_control.md R160 -/
  | beq (regA regB : Reg) (offset : Int)
  /-- 43_control.md R161 -/
  | jalr (regA regB : Reg)
  /-- 44_system.md R170 -/
  | halt
  /-- 44_system.md R171 -/
  | noop
  deriving DecidableEq, Repr

end Sys2Proof
end

