-- ==== Sys2Proof/WellFormed.lean ====
section
/-! DEFINITION. When an instruction has an encoding: its offset fits the 16-bit field. A register
number is in [0, 7] by its type. -/

namespace Sys2Proof

/-- The signed 16-bit range of an offset (30_encoding.md R102, R105). -/
def offsetInRange (v : Int) : Bool :=
  decide (Config.offsetMin ≤ v) && decide (v ≤ Config.offsetMax)

/-- The well-formedness of an instruction: lw, sw and beq carry an offset of the field's range. -/
def Instr.wf : Instr → Bool
  | .add _ _ _ => true
  | .nor _ _ _ => true
  | .lw _ _ offset => offsetInRange offset
  | .sw _ _ offset => offsetInRange offset
  | .beq _ _ offset => offsetInRange offset
  | .jalr _ _ => true
  | .halt => true
  | .noop => true

end Sys2Proof
end

