-- ==== Sys2Proof/Decode.lean ====
section
/-! DEFINITION. The decoder of 30_encoding.md Part A, total on every word, and after it the encoder
of an instruction, over the one opcode map of R87 (R120). -/

namespace Sys2Proof

/-! ## The opcode map and the formats -/

/-- The eight operations that bits 24-22 select (30_encoding.md R87). -/
inductive Opcode where
  | add | nor | lw | sw | beq | jalr | halt | noop
  deriving DecidableEq, Repr

/-- The four formats (30_encoding.md R82). -/
inductive Format where
  | rType | iType | jType | oType
  deriving DecidableEq, Repr

/-- The opcode column of the opcode map (30_encoding.md R87). -/
def Opcode.code : Opcode → Nat
  | .add => 0
  | .nor => 1
  | .lw => 2
  | .sw => 3
  | .beq => 4
  | .jalr => 5
  | .halt => 6
  | .noop => 7

/-- The operation of a 3-bit opcode field; every value is assigned (30_encoding.md R87, R90). -/
def Opcode.ofField (f : BitVec 3) : Opcode :=
  match (f.toFin : Fin 8) with
  | 0 => .add
  | 1 => .nor
  | 2 => .lw
  | 3 => .sw
  | 4 => .beq
  | 5 => .jalr
  | 6 => .halt
  | 7 => .noop

/-- The format column of the opcode map (30_encoding.md R82, R87). -/
def Opcode.format : Opcode → Format
  | .add => .rType
  | .nor => .rType
  | .lw => .iType
  | .sw => .iType
  | .beq => .iType
  | .jalr => .jType
  | .halt => .oType
  | .noop => .oType

/-- The operation an instruction is. -/
def Instr.opcode : Instr → Opcode
  | .add _ _ _ => .add
  | .nor _ _ _ => .nor
  | .lw _ _ _ => .lw
  | .sw _ _ _ => .sw
  | .beq _ _ _ => .beq
  | .jalr _ _ => .jalr
  | .halt => .halt
  | .noop => .noop

/-! ## The decoder -/

/-- The tuple the decoder extracts from every word (00_scope.md R16). -/
structure Fields where
  opcode : BitVec 3
  regA : BitVec 3
  regB : BitVec 3
  destReg : BitVec 3
  offset : BitVec 16
  deriving DecidableEq, Repr

/-- The five slices of 30_encoding.md R88, taken from every word whatever its opcode. -/
def decodeFields (w : Word) : Fields where
  opcode := w.extractLsb' 22 3
  regA := w.extractLsb' 19 3
  regB := w.extractLsb' 16 3
  destReg := w.extractLsb' 0 3
  offset := w.extractLsb' 0 16

/-- `sext_16` of 00_scope.md R21: "if bit 15 is set, subtract 2^16" (30_encoding.md R89). -/
def sext16 (v : BitVec 16) : Int :=
  if v.getLsbD 15 then (v.toNat : Int) - 65536 else (v.toNat : Int)

/-- The register a 3-bit field names (30_encoding.md R81). -/
def regOfField (f : BitVec 3) : Reg :=
  f.toFin

/-- Which instruction the extracted fields are (40_cycle.md R133): the opcode selects, and a field
the format does not use is ignored (30_encoding.md R83 to R86, R90). -/
def Fields.toInstr (f : Fields) : Instr :=
  match Opcode.ofField f.opcode with
  | .add => .add (regOfField f.regA) (regOfField f.regB) (regOfField f.destReg)
  | .nor => .nor (regOfField f.regA) (regOfField f.regB) (regOfField f.destReg)
  | .lw => .lw (regOfField f.regA) (regOfField f.regB) (sext16 f.offset)
  | .sw => .sw (regOfField f.regA) (regOfField f.regB) (sext16 f.offset)
  | .beq => .beq (regOfField f.regA) (regOfField f.regB) (sext16 f.offset)
  | .jalr => .jalr (regOfField f.regA) (regOfField f.regB)
  | .halt => .halt
  | .noop => .noop

/-- The decoder. It rejects nothing, because no word is illegal (00_scope.md R16; 30_encoding.md R90). -/
def decode (w : Word) : Instr :=
  (decodeFields w).toInstr

/-- The instruction of a row of spec/opcode_table.json: the low `nbits` bits of `w` are the word and
every bit above them is 0. No instruction is longer than one word (30_encoding.md R80). -/
def decodeTableWord (nbits w : Nat) : Option Instr :=
  if nbits ≤ 32 then some (decode (BitVec.ofNat 32 (w % 2 ^ nbits))) else none

/-! ## The encoder of one instruction, shared with the assembler (30_encoding.md R120) -/

/-- `opcode << 22`. -/
def packOpcode (o : Opcode) : Word :=
  BitVec.ofNat 32 o.code <<< 22

/-- A register number at the low end of a word. -/
def packReg (r : Reg) : Word :=
  BitVec.ofNat 32 r.val

/-- O-type packing (30_encoding.md R110). -/
def packO (o : Opcode) : Word :=
  packOpcode o

/-- J-type packing (30_encoding.md R109). -/
def packJ (o : Opcode) (a b : Reg) : Word :=
  packOpcode o ||| packReg a <<< 19 ||| packReg b <<< 16

/-- R-type packing (30_encoding.md R107). -/
def packR (o : Opcode) (a b d : Reg) : Word :=
  packOpcode o ||| packReg a <<< 19 ||| packReg b <<< 16 ||| packReg d

/-- I-type packing (30_encoding.md R108). -/
def packI (o : Opcode) (a b : Reg) (f : BitVec 16) : Word :=
  packOpcode o ||| packReg a <<< 19 ||| packReg b <<< 16 ||| f.setWidth 32

/-- The masking of an offset to its 16-bit two's-complement field, `offset & 0xFFFF` (30_encoding.md R106). -/
def maskOffset (v : Int) : BitVec 16 :=
  BitVec.ofInt 16 v

/-- The word of an instruction (30_encoding.md R107 to R110). -/
def encode : Instr → Word
  | .add a b d => packR .add a b d
  | .nor a b d => packR .nor a b d
  | .lw a b offset => packI .lw a b (maskOffset offset)
  | .sw a b offset => packI .sw a b (maskOffset offset)
  | .beq a b offset => packI .beq a b (maskOffset offset)
  | .jalr a b => packJ .jalr a b
  | .halt => packO .halt
  | .noop => packO .noop

end Sys2Proof
end

