-- ==== Sys2Proof/Machine/State.lean ====
section
/-! DEFINITION. The machine's state as plain data (10_state.md sections 1 to 5), the state after
reset, and the reasons a step can stop. -/

namespace Sys2Proof.Machine

/-- The runtime faults of the execute engine (60_exceptions.md R181). A step that detects one ends in
a state whose run state is `faulted` (R183). -/
inductive RuntimeFault where
  /-- Raised by the fetch of a step whose `pc` is not below `lwc` (40_cycle.md R131). -/
  | fetchOutOfRange
  /-- Raised by lw and sw (42_load_store.md R150, R151). -/
  | memAddrOutOfRange
  /-- Raised by beq, taken or not (43_control.md R160). -/
  | branchTargetOutOfRange
  /-- Raised by jalr (43_control.md R161). -/
  | jumpTargetOutOfRange
  /-- Raised by no step: the name is kept for an opcode outside 0 to 7, which a 3-bit field cannot
  hold (30_encoding.md R91; 90_conflicts.md C7). -/
  | invalidOpcode
  deriving DecidableEq, Repr

/-- The fault record `(f, pc0, value)` of 60_exceptions.md R183: `pc0` is the address of the faulting
instruction and `value` the column "value recorded" of R181. -/
structure FaultRecord where
  fault : RuntimeFault
  pc0 : Nat
  value : Int
  deriving DecidableEq, Repr

/-- The run state of the halt state machine (10_state.md R39). -/
inductive RunState where
  | running
  | halted
  | faulted (record : FaultRecord)
  deriving DecidableEq, Repr

/-- One memory word at its address. The unit is the word; no byte view exists (20_memory.md R65). -/
abbrev Cell := Nat × Word

/-- Memory contents: the words that differ from what an unlisted address reads as, at strictly rising
addresses. `Memory.wf` in Machine/Ops.lean says the form (notes/assumptions/3.md). -/
abbrev Memory := List Cell

/-- The whole state of the execute engine, the program counter and the halt state machine. -/
structure State where
  /-- `x[0]` to `x[7]` (10_state.md R30). -/
  regs : Vector Word 8
  /-- The program counter, a word address (10_state.md R34). -/
  pc : Nat
  /-- The memory words below `lwc` (10_state.md R43). -/
  mem : Memory
  /-- The loaded word count (10_state.md R38). -/
  lwc : Nat
  /-- The run state (10_state.md R39). -/
  run : RunState
  /-- The executed-instruction count (10_state.md R40). -/
  count : Nat
  deriving DecidableEq, Repr

/-- The state after reset with the image of no words: every other field at the value 10_state.md R44
gives it. The reset for an image is `State.ofImage` in Machine/Loader.lean (notes/assumptions/4.md). -/
def State.reset : State where
  regs := Vector.replicate 8 0
  pc := 0
  mem := []
  lwc := 0
  run := .running
  count := 0

/-- Why `step` answers no next state. Both are raised by `step` alone, and both are safe: the spec
gives such a state no step (00_scope.md R18; 10_state.md R39; 60_exceptions.md R184). -/
inductive Fault where
  /-- Raised by `step` from a state whose run state is `halted`: halt is terminal. Safe. -/
  | halted
  /-- Raised by `step` from a state whose run state is `faulted`, with its record. Safe. -/
  | faulted (record : FaultRecord)
  deriving DecidableEq, Repr

/-- Why the model gives an instruction no meaning. -/
inductive Refusal where
  /-- Raised by an arm of `exec` whose instruction has no meaning yet. No arm is left so. Safe. -/
  | notModelled (mnemonic : String)
  deriving DecidableEq, Repr

end Sys2Proof.Machine
end

