-- ==== Sys2Proof/Machine/Ops.lean ====
section
/-! DEFINITION. The named operations over registers, memory, the program counter, the count and the
run state. Every read and write of State by an instruction goes through them. -/

namespace Sys2Proof.Machine

/-- `wrap32` of 00_scope.md R21: the `Word32` congruent to `i` modulo 2^32. -/
def wrap32 (i : Int) : Word :=
  BitVec.ofInt 32 i

/-! ## Memory contents -/

/-- What an address that the list does not hold reads as (notes/assumptions/3.md). -/
def Memory.unlisted : Word := 0

/-- The canonical form: strictly rising addresses, and no word equal to what an unlisted address
reads as. -/
abbrev Memory.wf (m : Memory) : Prop :=
  m.Pairwise (fun c d => c.1 < d.1) ∧ ∀ c ∈ m, c.2 ≠ Memory.unlisted

/-- The word at an address. -/
def Memory.get : Memory → Nat → Word
  | [], _ => Memory.unlisted
  | (k, w) :: rest, a => if k = a then w else Memory.get rest a

/-- The contents without an entry for one address. -/
def Memory.erase (m : Memory) (a : Nat) : Memory :=
  m.filter fun c => decide (c.1 ≠ a)

/-- The contents with an entry put before the first higher address. -/
def Memory.insert : Memory → Nat → Word → Memory
  | [], a, v => [(a, v)]
  | (k, w) :: rest, a, v =>
    if a < k then (a, v) :: (k, w) :: rest else (k, w) :: Memory.insert rest a v

/-- The contents with the word at one address replaced; the canonical form is kept. -/
def Memory.put (m : Memory) (a : Nat) (v : Word) : Memory :=
  if v = Memory.unlisted then Memory.erase m a else Memory.insert (Memory.erase m a) a v

/-- The contents that hold the words of an image from address `a` on (10_state.md R44). -/
def Memory.ofWordsFrom : Nat → List Word → Memory
  | _, [] => []
  | a, w :: ws =>
    if w = Memory.unlisted then Memory.ofWordsFrom (a + 1) ws
    else (a, w) :: Memory.ofWordsFrom (a + 1) ws

/-! ## Registers -/

/-- `x[r]` (10_state.md R30). No register is hardwired (R31). -/
def State.readReg (s : State) (r : Reg) : Word :=
  s.regs[r]

/-- `x[r] <- v` (10_state.md R31). -/
def State.writeReg (s : State) (r : Reg) (v : Word) : State :=
  { s with regs := s.regs.set r v }

/-! ## Memory accesses -/

/-- The bounds test against `lwc` (20_memory.md R63, R76). -/
def State.inBounds (s : State) (a : Int) : Bool :=
  decide (0 ≤ a) && decide (a < s.lwc)

/-- `MemRead(a, 1)`, with `none` where it is not defined (20_memory.md R63). -/
def State.memRead (s : State) (a : Int) : Option Word :=
  if s.inBounds a then some (s.mem.get a.toNat) else none

/-- `MemWrite(a, 1, v)`, with `none` where it is not defined (20_memory.md R63). -/
def State.memWrite (s : State) (a : Int) (v : Word) : Option State :=
  if s.inBounds a then some { s with mem := s.mem.put a.toNat v } else none

/-- The fetch of the word at `pc`, with `none` outside `[0, lwc)` (40_cycle.md R131). -/
def State.fetch (s : State) : Option Word :=
  s.memRead s.pc

/-! ## The cycle's own effects and the end of a run -/

/-- The advance of 40_cycle.md R132, after fetch and before execute. -/
def State.advance (s : State) : State :=
  { s with pc := s.pc + 1 }

/-- `pc <- t` (00_scope.md R21). -/
def State.setPc (s : State) (t : Nat) : State :=
  { s with pc := t }

/-- `run <- Halted` (44_system.md R170). -/
def State.enterHalted (s : State) : State :=
  { s with run := .halted }

/-- The end of a completed instruction: the count of 40_cycle.md R135. -/
def State.complete (s : State) : Host.Outcome State Fault Refusal :=
  .next { s with count := s.count + 1 }

/-- `raise f(value)`: a runtime fault of the step that began in `s`. The run state becomes `faulted`
with the record, and everything else stays as it was before the step: `pc` is the faulting
instruction's own address, nothing is written and nothing is counted (60_exceptions.md R183). -/
def State.raise (s : State) (f : RuntimeFault) (value : Int) : Host.Outcome State Fault Refusal :=
  .next { s with run := .faulted { fault := f, pc0 := s.pc, value := value } }

end Sys2Proof.Machine
end

