-- ==== Sys2Proof/Machine/Alu.lean ====
section
/-! DEFINITION. add and nor (41_alu.md). -/

namespace Sys2Proof.Machine

/-- 32-bit addition: the sum as an integer, wrapped (41_alu.md R140). -/
def aluAdd (x y : Word) : Word :=
  wrap32 (x.toInt + y.toInt)

/-- 32-bit bitwise NOR (41_alu.md R141). -/
def aluNor (x y : Word) : Word :=
  ~~~(x ||| y)

/-- add (41_alu.md R140). -/
def execAdd (a b d : Reg) (s : State) : Host.Outcome State Fault Refusal :=
  let s1 := s.advance
  (s1.writeReg d (aluAdd (s1.readReg a) (s1.readReg b))).complete

/-- nor (41_alu.md R141). -/
def execNor (a b d : Reg) (s : State) : Host.Outcome State Fault Refusal :=
  let s1 := s.advance
  (s1.writeReg d (aluNor (s1.readReg a) (s1.readReg b))).complete

end Sys2Proof.Machine
end

