-- ==== Sys2Proof/Machine/Flags.lean ====
section
/-! DEFINITION. The machine has no flags (10_state.md R41): its one condition is the comparison that
beq makes of two registers. -/

namespace Sys2Proof.Machine

/-- beq's condition: equality of the full 32-bit values (43_control.md R160). -/
def State.regsEqual (s : State) (a b : Reg) : Bool :=
  decide (s.readReg a = s.readReg b)

end Sys2Proof.Machine
end

