-- ==== Sys2Proof/Machine/Operands.lean ====
section
/-! DEFINITION. The addresses the instructions compute, as unbounded integers (42_load_store.md R152;
43_control.md R160, R161; decision D28). -/

namespace Sys2Proof.Machine

/-- The one addressing mode, base plus displacement: `x[A] + off` (42_load_store.md R152). -/
def State.effectiveAddress (s : State) (a : Reg) (off : Int) : Int :=
  (s.readReg a).toInt + off

/-- beq's target `pc + off`, in a state whose `pc` is advanced (43_control.md R160). -/
def State.branchTarget (s : State) (off : Int) : Int :=
  (s.pc : Int) + off

/-- jalr's target `x[A]` as a number (43_control.md R161). -/
def State.jumpTarget (s : State) (a : Reg) : Int :=
  (s.readReg a).toInt

/-- jalr's bounds test: the strict "greater than" of 43_control.md R161 admits `lwc`. -/
def State.jumpInBounds (s : State) (t : Int) : Bool :=
  decide (0 ≤ t) && decide (t ≤ s.lwc)

/-- The link jalr writes, in a state whose `pc` is advanced (43_control.md R161). -/
def State.linkValue (s : State) : Word :=
  wrap32 s.pc

end Sys2Proof.Machine
end

