-- ==== Sys2Proof/Machine/Control.lean ====
section
/-! DEFINITION. beq and jalr (43_control.md). -/

namespace Sys2Proof.Machine

/-- beq (43_control.md R160). The target is checked whether or not the branch is taken (decision D6). -/
def execBeq (a b : Reg) (off : Int) (s : State) : Host.Outcome State Fault Refusal :=
  let s1 := s.advance
  let t := s1.branchTarget off
  if s1.inBounds t then
    (if s1.regsEqual a b then s1.setPc t.toNat else s1).complete
  else s.raise .branchTargetOutOfRange t

/-- jalr (43_control.md R161). The check reads `x[A]` before the link write and the jump reads it
after, so with `A = B` control goes to the link value (90_conflicts.md C2;
notes/assumptions/10.md). -/
def execJalr (a b : Reg) (s : State) : Host.Outcome State Fault Refusal :=
  let s1 := s.advance
  let t := s1.jumpTarget a
  if s1.jumpInBounds t then
    let s2 := s1.writeReg b s1.linkValue
    (s2.setPc (s2.jumpTarget a).toNat).complete
  else s.raise .jumpTargetOutOfRange t

end Sys2Proof.Machine
end

