-- ==== Sys2Proof/Machine/LoadStore.lean ====
section
/-! DEFINITION. lw and sw (42_load_store.md). -/

namespace Sys2Proof.Machine

/-- lw (42_load_store.md R150). -/
def execLw (a b : Reg) (off : Int) (s : State) : Host.Outcome State Fault Refusal :=
  let s1 := s.advance
  let ea := s1.effectiveAddress a off
  match s1.memRead ea with
  | none => s.raise .memAddrOutOfRange ea
  | some w => (s1.writeReg b w).complete

/-- sw (42_load_store.md R151). -/
def execSw (a b : Reg) (off : Int) (s : State) : Host.Outcome State Fault Refusal :=
  let s1 := s.advance
  let ea := s1.effectiveAddress a off
  match s1.memWrite ea (s1.readReg b) with
  | none => s.raise .memAddrOutOfRange ea
  | some s2 => s2.complete

end Sys2Proof.Machine
end

