-- ==== Sys2Proof/Machine/System.lean ====
section
/-! DEFINITION. halt and noop (44_system.md). -/

namespace Sys2Proof.Machine

/-- halt (44_system.md R170). -/
def execHalt (s : State) : Host.Outcome State Fault Refusal :=
  s.advance.enterHalted.complete

/-- noop (44_system.md R171). -/
def execNoop (s : State) : Host.Outcome State Fault Refusal :=
  s.advance.complete

end Sys2Proof.Machine
end

