-- ==== Sys2Proof/Machine/Dispatch.lean ====
section
/-! DEFINITION. The execute stage's dispatch (40_cycle.md R133): one arm per instruction. The state is
the one the step fetched in, before the advance; each meaning advances, executes and counts
(notes/assumptions/6.md). -/

namespace Sys2Proof.Machine

def exec (i : Instr) (s : State) : Host.Outcome State Fault Refusal :=
  match i with
  | .add regA regB destReg => Sys2Proof.Machine.execAdd regA regB destReg s
  | .nor regA regB destReg => Sys2Proof.Machine.execNor regA regB destReg s
  | .lw regA regB offset => Sys2Proof.Machine.execLw regA regB offset s
  | .sw regA regB offset => Sys2Proof.Machine.execSw regA regB offset s
  | .beq regA regB offset => Sys2Proof.Machine.execBeq regA regB offset s
  | .jalr regA regB => Sys2Proof.Machine.execJalr regA regB s
  | .halt => Sys2Proof.Machine.execHalt s
  | .noop => Sys2Proof.Machine.execNoop s

end Sys2Proof.Machine
end

