-- ==== Sys2Proof/Machine/Step.lean ====
section
/-! DEFINITION. One step of the execute engine (40_cycle.md R130), and the load of one word where the
next fetch reads. -/

namespace Sys2Proof.Machine

/-- One call executes exactly one instruction; a halted or faulted state has no step (00_scope.md R18;
notes/assumptions/2.md). -/
def step (s : State) : Host.Outcome State Fault Refusal :=
  match s.run with
  | .halted => .fault .halted
  | .faulted record => .fault (.faulted record)
  | .running =>
    match s.fetch with
    | none => s.raise .fetchOutOfRange s.pc
    | some w => exec (decode w) s

/-- The state whose next step fetches and runs the given word: the word stands at `pc`, `pc` is among
the loaded words, and the run state is `running` (notes/assumptions/5.md). -/
def State.withFetchWord (s : State) (nbits w : Nat) : State :=
  { s with
    mem := s.mem.put s.pc (BitVec.ofNat 32 (w % 2 ^ nbits))
    lwc := max s.lwc (s.pc + 1)
    run := .running }

end Sys2Proof.Machine
end

