-- ==== Sys2Proof/Machine/Numeral.lean ====
section
/-! DEFINITION. Decimal numerals: the well-formed integer of 30_encoding.md R99, which the encoder and
the loader read, and the signed decimal of 00_scope.md R22, which the assembler writes. -/

namespace Sys2Proof.Machine

/-- The value of a decimal digit character. -/
def digitVal? (c : Char) : Option Nat :=
  if 48 ≤ c.toNat ∧ c.toNat ≤ 57 then some (c.toNat - 48) else none

/-- The value of a digit string after a prefix of value `acc`; `none` at a character that is no digit. -/
def digitsVal? : Nat → Text → Option Nat
  | acc, [] => some acc
  | acc, c :: cs =>
    match digitVal? c with
    | none => none
    | some d => digitsVal? (acc * 10 + d) cs

/-- The value of `[0-9]+`. -/
def parseNat? : Text → Option Nat
  | [] => none
  | c :: cs => digitsVal? 0 (c :: cs)

/-- The value of a token that matches `[+-]?[0-9]+` in full, of any size; `none` for any other token
(30_encoding.md R99). -/
def parseInt? : Text → Option Int
  | '+' :: cs => (parseNat? cs).map fun n => (n : Int)
  | '-' :: cs => (parseNat? cs).map fun n => -(n : Int)
  | cs => (parseNat? cs).map fun n => (n : Int)

/-- The range of a `Word32` (00_scope.md R21), which a `.fill` value and an image line must lie in
(30_encoding.md R111; 70_reset_and_hazards.md R211). -/
def wordInRange (v : Int) : Bool :=
  decide (Config.wordMin ≤ v) && decide (v ≤ Config.wordMax)

/-- The character of a digit below 10. -/
def digitChar (d : Nat) : Char :=
  Char.ofNat (48 + d)

/-- The decimal digits of `n` before `tail`, at most `fuel` of them, with no leading zero. -/
def decimalDigits : Nat → Nat → Text → Text
  | 0, _, tail => tail
  | fuel + 1, n, tail =>
    if n < 10 then digitChar n :: tail
    else decimalDigits fuel (n / 10) (digitChar (n % 10) :: tail)

/-- The decimal numeral of a number below 10^10; the magnitude of a `Word32` is at most 2^31. -/
def printNat (n : Nat) : Text :=
  decimalDigits 10 n []

/-- A word as a signed decimal (00_scope.md R22; notes/assumptions/8.md). -/
def printWord (w : Word) : Text :=
  if w.toInt < 0 then '-' :: printNat w.toInt.natAbs else printNat w.toInt.natAbs

end Sys2Proof.Machine
end

