-- ==== Sys2Proof/Machine/Assembler.lean ====
section
/-! DEFINITION. The encoder block of 30_encoding.md Part B: records, pass 1 (the symbol table), pass 2
(one record to one word), the assembly errors and the driver. -/

namespace Sys2Proof.Machine

/-! ## Records, the symbol table, errors -/

/-- The Line Reader's output for one source line; each field is text or absent (30_encoding.md R94). -/
structure Record where
  label : Option Text
  opcode : Option Text
  op0 : Option Text
  op1 : Option Text
  op2 : Option Text
  deriving DecidableEq, Repr

/-- The symbol table: labels and their addresses (10_state.md R45). Pass 1 keeps the labels distinct. -/
abbrev Symtab := List (Text × Nat)

/-- The encoder block's state while pass 1 runs (10_state.md R45, R46). -/
structure EncoderState where
  symtab : Symtab
  currentAddress : Nat
  deriving DecidableEq, Repr

/-- The assembly errors of 60_exceptions.md R187. Each carries the record's address and, where there
is one, the offending text (30_encoding.md R116). -/
inductive AsmError where
  | duplicateLabel (addr : Nat) (label : Text)
  | unrecognizedOpcode (addr : Nat) (opcode : Option Text)
  | missingOperand (addr : Nat)
  | badRegister (addr : Nat) (operand : Text)
  | undefinedLabel (addr : Nat) (label : Text)
  | offsetOutOfRange (addr : Nat) (operand : Text)
  | fillOutOfRange (addr : Nat) (operand : Text)
  deriving DecidableEq, Repr

/-- What an opcode text names: an instruction, or the one directive `.fill` (30_encoding.md R122). -/
inductive SourceOp where
  | instr (opcode : Opcode)
  | fill
  deriving DecidableEq, Repr

/-! ## Pass 1 -/

/-- The address a label is defined at. Labels are compared as exact strings (30_encoding.md R98). -/
def symtabFind : Symtab → Text → Option Nat
  | [], _ => none
  | (k, addr) :: rest, l => if k = l then some addr else symtabFind rest l

/-- The label a record defines: an absent or empty label field defines none (30_encoding.md R96). -/
def Record.definedLabel (r : Record) : Option Text :=
  match r.label with
  | none => none
  | some [] => none
  | some (c :: cs) => some (c :: cs)

/-- Pass 1 on one record: enter its label, if it has one, at the current address, and go on to the
next address (30_encoding.md R96, R97; 10_state.md R46). -/
def pass1Record (st : EncoderState) (r : Record) : Except AsmError EncoderState :=
  match r.definedLabel with
  | none => .ok { st with currentAddress := st.currentAddress + 1 }
  | some l =>
    match symtabFind st.symtab l with
    | some _ => .error (.duplicateLabel st.currentAddress l)
    | none =>
      .ok { symtab := (l, st.currentAddress) :: st.symtab, currentAddress := st.currentAddress + 1 }

/-- Pass 1 over the rest of the records. -/
def pass1From : EncoderState → List Record → Except AsmError EncoderState
  | st, [] => .ok st
  | st, r :: rs =>
    match pass1Record st r with
    | .error e => .error e
    | .ok st' => pass1From st' rs

/-- Pass 1: the symbol table and the instruction count, or `duplicateLabel` (00_scope.md R13;
30_encoding.md R96). -/
def pass1 (recs : List Record) : Except AsmError (Symtab × Nat) :=
  match pass1From { symtab := [], currentAddress := 0 } recs with
  | .error e => .error e
  | .ok st => .ok (st.symtab, st.currentAddress)

/-! ## Pass 2: opcode text and operands -/

/-- The spelling of a mnemonic (30_encoding.md R114). -/
def mnemonicText : Opcode → Text
  | .add => ['a', 'd', 'd']
  | .nor => ['n', 'o', 'r']
  | .lw => ['l', 'w']
  | .sw => ['s', 'w']
  | .beq => ['b', 'e', 'q']
  | .jalr => ['j', 'a', 'l', 'r']
  | .halt => ['h', 'a', 'l', 't']
  | .noop => ['n', 'o', 'o', 'p']

/-- The opcode text of an instruction or of the directive (30_encoding.md R114). -/
def SourceOp.text : SourceOp → Text
  | .instr o => mnemonicText o
  | .fill => ['.', 'f', 'i', 'l', 'l']

/-- The nine opcode texts of 30_encoding.md R122. -/
def sourceOps : List SourceOp :=
  [.instr .add, .instr .nor, .instr .lw, .instr .sw, .instr .beq, .instr .jalr, .instr .halt,
    .instr .noop, .fill]

/-- What an opcode text names, by exact match in lower case; an absent text names nothing
(30_encoding.md R113, R114). -/
def SourceOp.ofText? : Option Text → Option SourceOp
  | none => none
  | some t => sourceOps.find? fun o => decide (o.text = t)

/-- A register operand (30_encoding.md R100). -/
def regOperand (t : Option Text) (addr : Nat) : Except AsmError Reg :=
  match t with
  | none => .error (.missingOperand addr)
  | some x =>
    match parseInt? x with
    | none => .error (.badRegister addr x)
    | some v =>
      if 0 ≤ v ∧ v ≤ 7 then .ok (Fin.ofNat 8 v.toNat) else .error (.badRegister addr x)

/-- The offset field of an I-type record (30_encoding.md R101 to R106): a literal as it is, a label of
lw or sw as its absolute address, a label of beq relative to the record after it. -/
def offsetOperand (t : Option Text) (o : Opcode) (symtab : Symtab) (addr : Nat) :
    Except AsmError (BitVec 16) :=
  match t with
  | none => .error (.missingOperand addr)
  | some x =>
    match parseInt? x with
    | some v => if offsetInRange v then .ok (maskOffset v) else .error (.offsetOutOfRange addr x)
    | none =>
      match symtabFind symtab x with
      | none => .error (.undefinedLabel addr x)
      | some l =>
        if (l : Int) ≤ Config.offsetMax then
          if o = .beq then
            if offsetInRange ((l : Int) - ((addr : Int) + 1)) then
              .ok (maskOffset ((l : Int) - ((addr : Int) + 1)))
            else .error (.offsetOutOfRange addr x)
          else .ok (maskOffset (l : Int))
        else .error (.offsetOutOfRange addr x)

/-- The word of a `.fill` record (30_encoding.md R111, R112). -/
def fillOperand (t : Option Text) (symtab : Symtab) (addr : Nat) : Except AsmError Word :=
  match t with
  | none => .error (.missingOperand addr)
  | some x =>
    match parseInt? x with
    | some v => if wordInRange v then .ok (wrap32 v) else .error (.fillOutOfRange addr x)
    | none =>
      match symtabFind symtab x with
      | none => .error (.undefinedLabel addr x)
      | some l =>
        if (l : Int) ≤ Config.wordMax then .ok (wrap32 (l : Int)) else .error (.fillOutOfRange addr x)

/-! ## Pass 2: one record, per format -/

/-- An R-type record: op0, op1 and op2 in that order, then the packing (30_encoding.md R107, R116). -/
def encRType (o : Opcode) (r : Record) (addr : Nat) : Except AsmError Word :=
  match regOperand r.op0 addr with
  | .error e => .error e
  | .ok a =>
    match regOperand r.op1 addr with
    | .error e => .error e
    | .ok b =>
      match regOperand r.op2 addr with
      | .error e => .error e
      | .ok d => .ok (packR o a b d)

/-- An I-type record (30_encoding.md R108, R116). -/
def encIType (o : Opcode) (r : Record) (symtab : Symtab) (addr : Nat) : Except AsmError Word :=
  match regOperand r.op0 addr with
  | .error e => .error e
  | .ok a =>
    match regOperand r.op1 addr with
    | .error e => .error e
    | .ok b =>
      match offsetOperand r.op2 o symtab addr with
      | .error e => .error e
      | .ok f => .ok (packI o a b f)

/-- A J-type record; op2 is not read (30_encoding.md R109, R115). -/
def encJType (o : Opcode) (r : Record) (addr : Nat) : Except AsmError Word :=
  match regOperand r.op0 addr with
  | .error e => .error e
  | .ok a =>
    match regOperand r.op1 addr with
    | .error e => .error e
    | .ok b => .ok (packJ o a b)

/-- The encoder on one record (30_encoding.md R124): a pure function of the record, the symbol table
and the record's own address (00_scope.md R14). -/
def encRecord (r : Record) (symtab : Symtab) (addr : Nat) : Except AsmError Word :=
  match SourceOp.ofText? r.opcode with
  | none => .error (.unrecognizedOpcode addr r.opcode)
  | some .fill => fillOperand r.op0 symtab addr
  | some (.instr o) =>
    match o.format with
    | .rType => encRType o r addr
    | .iType => encIType o r symtab addr
    | .jType => encJType o r addr
    | .oType => .ok (packO o)

/-! ## The driver -/

/-- Pass 2 over the rest of the records, from address `addr` on; the first error aborts
(30_encoding.md R116, R117). -/
def pass2From (symtab : Symtab) : Nat → List Record → Except AsmError (List Word)
  | _, [] => .ok []
  | addr, r :: rs =>
    match encRecord r symtab addr with
    | .error e => .error e
    | .ok w =>
      match pass2From symtab (addr + 1) rs with
      | .error e => .error e
      | .ok ws => .ok (w :: ws)

/-- The assembler driver: the word list, or the first assembly error alone (00_scope.md R15;
30_encoding.md R117, R124). -/
def assemble (recs : List Record) : Except AsmError (List Word) :=
  match pass1 recs with
  | .error e => .error e
  | .ok (symtab, _) => pass2From symtab 0 recs

/-- The assembler's output: one signed decimal a record, in source order (30_encoding.md R118). -/
def assembleOutput (recs : List Record) : Except AsmError (List Text) :=
  match assemble recs with
  | .error e => .error e
  | .ok ws => .ok (ws.map printWord)

end Sys2Proof.Machine
end

