-- ==== Sys2Proof/Machine/Loader.lean ====
section
/-! DEFINITION. Reset from an image, the loader of an image's decimal lines, and the input errors
(70_reset_and_hazards.md R210 to R212; 60_exceptions.md R188). -/

namespace Sys2Proof.Machine

/-- The input errors of 60_exceptions.md R188. -/
inductive InputError where
  /-- A source line over `MAX_LINE_LENGTH`, or without a trailing newline; raised by the Line Reader. -/
  | lineTooLong (line : Text)
  /-- An image line that is not a well-formed integer. -/
  | badWordLine (index : Nat) (line : Text)
  /-- An image integer outside [-2^31, 2^31 - 1]. -/
  | wordOutOfRange (index : Nat) (line : Text)
  /-- More than `MEM_CAPACITY` image lines. -/
  | imageTooLarge (lines : Nat)
  deriving DecidableEq, Repr

/-- The reset state for an image (10_state.md R44; 70_reset_and_hazards.md R210). -/
def State.ofImage (img : List Word) : State where
  regs := Vector.replicate 8 0
  pc := 0
  mem := Memory.ofWordsFrom 0 img
  lwc := img.length
  run := .running
  count := 0

/-- One image line, its terminator removed, with its 0-based index (70_reset_and_hazards.md R211). -/
def loadLine (index : Nat) (line : Text) : Except InputError Word :=
  match parseInt? line with
  | none => .error (.badWordLine index line)
  | some v => if wordInRange v then .ok (wrap32 v) else .error (.wordOutOfRange index line)

/-- The image lines from `index` on; the first bad line is reported (70_reset_and_hazards.md R211). -/
def loadLinesFrom : Nat → List Text → Except InputError (List Word)
  | _, [] => .ok []
  | index, line :: lines =>
    match loadLine index line with
    | .error e => .error e
    | .ok w =>
      match loadLinesFrom (index + 1) lines with
      | .error e => .error e
      | .ok ws => .ok (w :: ws)

/-- The loader (00_scope.md R17; 70_reset_and_hazards.md R211, R212). -/
def load (lines : List Text) : Except InputError State :=
  if Config.memCapacity < lines.length then .error (.imageTooLarge lines.length)
  else
    match loadLinesFrom 0 lines with
    | .error e => .error e
    | .ok img => .ok (State.ofImage img)

/-- The characters of a source line before its trailing newline; `none` without one. -/
def chopNewline : Text → Option Text
  | [] => none
  | ['\n'] => some []
  | c :: cs => (chopNewline cs).map fun line => c :: line

/-- The Line Reader's one rejection: a source line longer than `MAX_LINE_LENGTH`, or without a
trailing newline (60_exceptions.md R188; 90_conflicts.md C4; notes/assumptions/7.md). -/
def checkSourceLine (cfg : Config) (line : Text) : Except InputError Text :=
  match chopNewline line with
  | none => .error (.lineTooLong line)
  | some body => if body.length ≤ cfg.maxLineLength then .ok body else .error (.lineTooLong line)

end Sys2Proof.Machine
end

