-- ==== Sys2Proof/Machine/Run.lean ====
section
/-! DEFINITION. A run and what it shows the host: snapshots, the cycle limit, the end of the run and
the exit status (00_scope.md R19; 10_state.md R47; 60_exceptions.md R189, R194, R196;
70_reset_and_hazards.md R216). -/

namespace Sys2Proof.Machine

/-- The snapshot `(pc, x[0..7], mem[0..lwc-1])` (10_state.md R47). -/
structure Snapshot where
  pc : Nat
  regs : Vector Word 8
  mem : List Word
  deriving DecidableEq, Repr

/-- The ends of a run (70_reset_and_hazards.md R216), and a run that is not over. -/
inductive RunEnd where
  /-- A halt executed: the final snapshot and the executed-instruction count. -/
  | halted (final : Snapshot) (count : Nat)
  /-- A runtime fault: its record. -/
  | faulted (record : FaultRecord)
  /-- The cycle limit stopped the run; the state is left as it is (60_exceptions.md R194). -/
  | nonTerminating (s : State)
  /-- Not an end: the steps looked at are used up. -/
  | notOver (s : State)
  deriving DecidableEq, Repr

/-- The process status of 60_exceptions.md R189; which non-zero value is not given. -/
inductive ExitStatus where
  | zero
  | nonZero
  deriving DecidableEq, Repr

/-- The memory words `mem[0]` to `mem[lwc - 1]` (10_state.md R43). -/
def State.words (s : State) : List Word :=
  (List.range s.lwc).map s.mem.get

/-- The snapshot of a state; it changes nothing (60_exceptions.md R196). -/
def State.snapshot (s : State) : Snapshot :=
  { pc := s.pc, regs := s.regs, mem := s.words }

/-- The execute engine as a step relation: the one next state, or none where the state has no step
(00_scope.md R18). -/
def State.next? (s : State) : Option State :=
  match step s with
  | .next t => some t
  | .fault _ => none
  | .refused _ => none

/-- Whether a run is over before its next fetch: halted, faulted, or, while running, stopped by the
cycle limit (60_exceptions.md R194; 70_reset_and_hazards.md R216). -/
def runEnd? (cfg : Config) (s : State) : Option RunEnd :=
  match s.run with
  | .halted => some (.halted s.snapshot s.count)
  | .faulted record => some (.faulted record)
  | .running =>
    match cfg.maxCycles with
    | none => none
    | some n => if n ≤ s.count then some (.nonTerminating s) else none

/-- A run of at most `fuel` steps: the snapshots before every fetch, and the end
(00_scope.md R19). A state that is running always has a step, so the last arm is met by none. -/
def runTrace (cfg : Config) : Nat → State → List Snapshot × RunEnd
  | 0, s =>
    match runEnd? cfg s with
    | some e => ([], e)
    | none => ([], .notOver s)
  | fuel + 1, s =>
    match runEnd? cfg s with
    | some e => ([], e)
    | none =>
      match s.next? with
      | some t => (s.snapshot :: (runTrace cfg fuel t).1, (runTrace cfg fuel t).2)
      | none => ([], .notOver s)

/-- The process status of a run's end: zero at halt, non-zero after a fault; the spec states none for
the other two (60_exceptions.md R189; notes/assumptions/9.md). -/
def RunEnd.exitStatus? : RunEnd → Option ExitStatus
  | .halted _ _ => some .zero
  | .faulted _ => some .nonZero
  | .nonTerminating _ => none
  | .notOver _ => none

/-- The process status after the encoder or the loader: a fatal error is non-zero; the spec states
none for a success (60_exceptions.md R189; notes/assumptions/9.md). -/
def errorExitStatus? {ε α : Type} : Except ε α → Option ExitStatus
  | .error _ => some .nonZero
  | .ok _ => none

end Sys2Proof.Machine
end

