-- ==== Sys2Proof/Safety.lean ====
section
/-! DEFINITION. What claims are stated in terms of: the invariant of the machine, frames, the causes
of each runtime fault, and when a step raises none. -/

namespace Sys2Proof.Machine

/-- The invariant of every reachable state: the ranges of `pc` and `lwc` (10_state.md R36, R38), and
the memory's canonical form with no word at or past `lwc` (20_memory.md R62). -/
structure State.Inv (s : State) : Prop where
  pc_le_lwc : s.pc ≤ s.lwc
  lwc_le_capacity : s.lwc ≤ Config.memCapacity
  mem_wf : s.mem.wf
  mem_below_lwc : ∀ c ∈ s.mem, c.1 < s.lwc

/-- Every register but `d` reads as before. -/
def State.SameRegsBut (d : Reg) (s t : State) : Prop :=
  ∀ r : Reg, r ≠ d → t.readReg r = s.readReg r

/-- Every register reads as before. -/
def State.SameRegs (s t : State) : Prop :=
  ∀ r : Reg, t.readReg r = s.readReg r

/-- Every address reads as before, the addresses that do not exist among them. -/
def State.SameMemory (s t : State) : Prop :=
  ∀ a : Int, t.memRead a = s.memRead a

/-- Every address but `ea` reads as before. -/
def State.SameMemoryBut (ea : Int) (s t : State) : Prop :=
  ∀ a : Int, a ≠ ea → t.memRead a = s.memRead a

/-- What every completed instruction but halt does to the control state: it adds one to the count and
leaves `lwc` and `run` (40_cycle.md R135, R136). -/
def State.Counted (s t : State) : Prop :=
  t.lwc = s.lwc ∧ t.run = s.run ∧ t.count = s.count + 1

/-- The state a fault of the step that began in `s` leaves (60_exceptions.md R183). -/
def State.faultedBy (s : State) (f : RuntimeFault) (value : Int) : State :=
  { s with run := .faulted { fault := f, pc0 := s.pc, value := value } }

/-- The table of 60_exceptions.md R181: the condition under which the step from `s` raises `f` with
the recorded `value`. -/
def State.Raises (s : State) (f : RuntimeFault) (value : Int) : Prop :=
  match f with
  | .fetchOutOfRange => s.lwc ≤ s.pc ∧ value = s.pc
  | .memAddrOutOfRange =>
    ∃ w a b off, s.fetch = some w ∧ (decode w = .lw a b off ∨ decode w = .sw a b off) ∧
      value = (s.readReg a).toInt + off ∧ (value < 0 ∨ (s.lwc : Int) ≤ value)
  | .branchTargetOutOfRange =>
    ∃ w a b off, s.fetch = some w ∧ decode w = .beq a b off ∧
      value = ((s.pc : Int) + 1) + off ∧ (value < 0 ∨ (s.lwc : Int) ≤ value)
  | .jumpTargetOutOfRange =>
    ∃ w a b, s.fetch = some w ∧ decode w = .jalr a b ∧
      value = (s.readReg a).toInt ∧ (value < 0 ∨ (s.lwc : Int) < value)
  | .invalidOpcode => False

/-- The conditions of 70_reset_and_hazards.md R219 on the instruction a step executes. -/
def keepsInRange (i : Instr) (s : State) : Prop :=
  match i with
  | .add _ _ _ => True
  | .nor _ _ _ => True
  | .lw a _ off => 0 ≤ (s.readReg a).toInt + off ∧ (s.readReg a).toInt + off < s.lwc
  | .sw a _ off => 0 ≤ (s.readReg a).toInt + off ∧ (s.readReg a).toInt + off < s.lwc
  | .beq _ _ off => 0 ≤ ((s.pc : Int) + 1) + off ∧ ((s.pc : Int) + 1) + off < s.lwc
  | .jalr a _ => 0 ≤ (s.readReg a).toInt ∧ (s.readReg a).toInt ≤ s.lwc
  | .halt => True
  | .noop => True

/-- The next step raises no fault: the fetch is in range and so is what the fetched instruction
addresses (70_reset_and_hazards.md R219). -/
def State.StepSafe (s : State) : Prop :=
  ∃ w, s.fetch = some w ∧ keepsInRange (decode w) s

/-- A run that has not faulted. -/
def State.Unfaulted (s : State) : Prop :=
  ∀ record, s.run ≠ .faulted record

/-- An operand text that the encoder reads as register `r` (30_encoding.md R99, R100). -/
def NamesReg (t : Option Text) (r : Reg) : Prop :=
  ∃ x, t = some x ∧ parseInt? x = some ((r.val : Nat) : Int)

/-- An operand text that the encoder reads as the integer `v` (30_encoding.md R99, R101). -/
def NamesInt (t : Option Text) (v : Int) : Prop :=
  ∃ x, t = some x ∧ parseInt? x = some v

/-- An operand text that is a label reference to address `l` (30_encoding.md R101, R103). -/
def NamesLabel (symtab : Symtab) (t : Option Text) (l : Nat) : Prop :=
  ∃ x, t = some x ∧ parseInt? x = none ∧ symtabFind symtab x = some l

/-- The register an instruction writes (10_state.md R32). -/
def destOf? : Instr → Option Reg
  | .add _ _ d => some d
  | .nor _ _ d => some d
  | .lw _ b _ => some b
  | .sw _ _ _ => none
  | .beq _ _ _ => none
  | .jalr _ b => some b
  | .halt => none
  | .noop => none

/-- The address an instruction stores to: sw's effective address (20_memory.md R64). -/
def storeAddressOf? (s : State) : Instr → Option Int
  | .add _ _ _ => none
  | .nor _ _ _ => none
  | .lw _ _ _ => none
  | .sw a _ off => some ((s.readReg a).toInt + off)
  | .beq _ _ _ => none
  | .jalr _ _ => none
  | .halt => none
  | .noop => none

/-- The bits of a word that a format reads; the decoder ignores the others (30_encoding.md R83 to R86). -/
def usedBits : Format → Word
  | .rType => 0x01FF0007
  | .iType => 0x01FFFFFF
  | .jType => 0x01FF0000
  | .oType => 0x01C00000

/-- The operands of an instruction are those the record's texts name: register numbers, a literal
offset as it is, a label of lw or sw as its absolute address, a label of beq relative to the record
after it (30_encoding.md R93, R103, R104). -/
def OperandsAgree (r : Record) (symtab : Symtab) (addr : Nat) (i : Instr) : Prop :=
  match i with
  | .add a b d => NamesReg r.op0 a ∧ NamesReg r.op1 b ∧ NamesReg r.op2 d
  | .nor a b d => NamesReg r.op0 a ∧ NamesReg r.op1 b ∧ NamesReg r.op2 d
  | .lw a b off =>
    NamesReg r.op0 a ∧ NamesReg r.op1 b ∧
      (NamesInt r.op2 off ∨ ∃ l : Nat, NamesLabel symtab r.op2 l ∧ off = l)
  | .sw a b off =>
    NamesReg r.op0 a ∧ NamesReg r.op1 b ∧
      (NamesInt r.op2 off ∨ ∃ l : Nat, NamesLabel symtab r.op2 l ∧ off = l)
  | .beq a b off =>
    NamesReg r.op0 a ∧ NamesReg r.op1 b ∧
      (NamesInt r.op2 off ∨ ∃ l : Nat, NamesLabel symtab r.op2 l ∧ off = (l : Int) - ((addr : Int) + 1))
  | .jalr a b => NamesReg r.op0 a ∧ NamesReg r.op1 b
  | .halt => True
  | .noop => True

/-- The label the record at an address defines. -/
def labelAt (recs : List Record) (addr : Nat) : Option Text :=
  match recs[addr]? with
  | none => none
  | some r => r.definedLabel

end Sys2Proof.Machine
end

