-- ==== Sys2Proof/Certificates/Slice0/Obligations.lean ====
section
/-! DEFINITION. The statements for the provers. Frames read registers and memory through the model's
own reads, and every exec statement concludes the next state it names. -/

open Sys2Proof Sys2Proof.Machine

/-! ## Encoding and decoding -/

/-- 30_encoding.md R93 at the level of the instruction: no operand is lost between the encoder and the
decoder, at every value the encoding admits; and every word decodes to a well-formed instruction. -/
def Obligations.DecodeInvertsEncode : Prop :=
  (∀ i : Instr, i.wf = true → decode (encode i) = i) ∧ ∀ w : Word, (decode w).wf = true

/-- 30_encoding.md R93: a record that assembles to an instruction word decodes to the operation its
opcode text names and to the operands its texts name, labels as the value the encoder computed. -/
def Obligations.AssembledRecordDecodesToItsOperands : Prop :=
  ∀ (r : Record) (symtab : Symtab) (addr : Nat) (o : Opcode) (w : Word),
    SourceOp.ofText? r.opcode = some (.instr o) → encRecord r symtab addr = .ok w →
      (decode w).opcode = o ∧ OperandsAgree r symtab addr (decode w)

/-- 30_encoding.md R90, R92 (the spec's own derivation): the decoder ignores exactly the bits its
format leaves unused, so encoding what a word decodes to clears those bits and no other. -/
def Obligations.EncodeOfDecodeClearsUnusedBits : Prop :=
  ∀ w : Word, encode (decode w) = w &&& usedBits (decode w).opcode.format ∧
    decode (w &&& usedBits (decode w).opcode.format) = decode w

/-- 30_encoding.md R87: bits 24-22 alone select the instruction, by match and mask; the codes, the
formats and the decimal column are the table's. -/
def Obligations.OpcodeMapSelectsByBits24To22 : Prop :=
  (∀ (w : Word) (o : Opcode),
    (decode w).opcode = o ↔ w &&& (0x01C00000 : Word) = (BitVec.ofNat 32 o.code <<< 22 : Word)) ∧
  ([Opcode.add, .nor, .lw, .sw, .beq, .jalr, .halt, .noop].map fun o =>
      (o.code, o.format, (packOpcode o).toNat)) =
    [(0, .rType, 0), (1, .rType, 4194304), (2, .iType, 8388608), (3, .iType, 12582912),
      (4, .iType, 16777216), (5, .jType, 20971520), (6, .oType, 25165824), (7, .oType, 29360128)]

/-- 30_encoding.md R88: the five fields are the document's shifts and masks, whether the shift of a
negative word is logical or arithmetic (the last is the spec's own derivation). -/
def Obligations.FieldsAreShiftsAndMasks : Prop :=
  ∀ w : Word,
    (decodeFields w).opcode.setWidth 32 = (w >>> 22) &&& 0x7 ∧
    (decodeFields w).regA.setWidth 32 = (w >>> 19) &&& 0x7 ∧
    (decodeFields w).regB.setWidth 32 = (w >>> 16) &&& 0x7 ∧
    (decodeFields w).destReg.setWidth 32 = w &&& 0x7 ∧
    (decodeFields w).offset.setWidth 32 = w &&& 0xFFFF ∧
    (w.sshiftRight 22).extractLsb' 0 3 = (decodeFields w).opcode ∧
    (w.sshiftRight 19).extractLsb' 0 3 = (decodeFields w).regA ∧
    (w.sshiftRight 16).extractLsb' 0 3 = (decodeFields w).regB

/-- 30_encoding.md R89: the sign extension of the offset field, and its use by lw, sw and beq. -/
def Obligations.OffsetFieldIsSignExtended : Prop :=
  (∀ f : BitVec 16,
    (f.getLsbD 15 = true → sext16 f = (f.toNat : Int) - 2 ^ 16) ∧
    (f.getLsbD 15 = false → sext16 f = f.toNat) ∧ -32768 ≤ sext16 f ∧ sext16 f ≤ 32767) ∧
  ∀ (w : Word) (a b : Reg) (off : Int),
    (decode w = .lw a b off ∨ decode w = .sw a b off ∨ decode w = .beq a b off) →
      off = sext16 (w.extractLsb' 0 16)

/-- Words of 95_test_vectors.md 2.1 and 2.2 decode to the instructions the spec gives them, one of
every family among them, some with ignored bits set. -/
def Obligations.SampleWordsDecodeAsTheSpecSays : Prop :=
  decode 655363 = .add 1 2 3 ∧ decode 4849667 = .nor 1 2 3 ∧ decode 8519679 = .lw 0 1 (-1) ∧
  decode 16252933 = .sw 7 0 5 ∧ decode 16842751 = .beq 0 0 (-1) ∧ decode 0x01671234 = .jalr 4 7 ∧
  decode 25165824 = .halt ∧ decode 0xFFFFFFFF = .noop ∧ decode 0x80000000 = .add 0 0 0 ∧
  decode 0xFE8A0003 = .lw 1 2 3

/-- 30_encoding.md R107 to R110: the packing of each format from the operands the record names, with
every bit outside its fields 0. Operands a format does not read may hold anything. -/
def Obligations.PackingFollowsEachFormat : Prop :=
  ∀ (r : Record) (symtab : Symtab) (addr : Nat) (o : Opcode) (a b d : Reg) (f : BitVec 16),
    SourceOp.ofText? r.opcode = some (.instr o) →
    (o.format = .rType → NamesReg r.op0 a → NamesReg r.op1 b → NamesReg r.op2 d →
      ∃ w : Word, encRecord r symtab addr = .ok w ∧
        w = BitVec.ofNat 32 o.code <<< 22 ||| BitVec.ofNat 32 a.val <<< 19 |||
          BitVec.ofNat 32 b.val <<< 16 ||| BitVec.ofNat 32 d.val ∧
        w &&& 0xFE00FFF8 = 0) ∧
    (o.format = .iType → NamesReg r.op0 a → NamesReg r.op1 b →
      offsetOperand r.op2 o symtab addr = .ok f →
      ∃ w : Word, encRecord r symtab addr = .ok w ∧
        w = BitVec.ofNat 32 o.code <<< 22 ||| BitVec.ofNat 32 a.val <<< 19 |||
          BitVec.ofNat 32 b.val <<< 16 ||| f.setWidth 32 ∧
        w &&& 0xFE000000 = 0) ∧
    (o.format = .jType → NamesReg r.op0 a → NamesReg r.op1 b →
      ∃ w : Word, encRecord r symtab addr = .ok w ∧
        w = BitVec.ofNat 32 o.code <<< 22 ||| BitVec.ofNat 32 a.val <<< 19 |||
          BitVec.ofNat 32 b.val <<< 16 ∧
        w &&& 0xFE00FFFF = 0) ∧
    (o.format = .oType → encRecord r symtab addr = .ok (BitVec.ofNat 32 o.code <<< 22))

/-! ## The instructions -/

/-- 41_alu.md R140: add. The sum wraps, the sources are read before the write, nothing but the
destination, `pc` and the count changes, and no form faults. -/
def Obligations.AddWritesTheWrappedSum : Prop :=
  (∀ (a b d : Reg) (s : State), ∃ t, exec (.add a b d) s = .next t ∧
    t.readReg d = wrap32 ((s.readReg a).toInt + (s.readReg b).toInt) ∧
    (t.readReg d).toNat = ((s.readReg a).toNat + (s.readReg b).toNat) % 2 ^ 32 ∧
    s.SameRegsBut d t ∧ s.SameMemory t ∧ t.pc = s.pc + 1 ∧ s.Counted t) ∧
  (∀ a b d : Reg, encode (.add a b d) =
    (0 : Word) <<< 22 ||| BitVec.ofNat 32 a.val <<< 19 ||| BitVec.ofNat 32 b.val <<< 16 |||
      BitVec.ofNat 32 d.val) ∧
  (∀ (label t0 t1 t2 : Option Text) (symtab : Symtab) (addr : Nat) (a b d : Reg),
    NamesReg t0 a → NamesReg t1 b → NamesReg t2 d →
      encRecord ⟨label, some "add".toList, t0, t1, t2⟩ symtab addr = .ok (encode (.add a b d))) ∧
  encode (.add 1 2 3) = 655363 ∧
  (∀ s : State, s.readReg 1 = 5 → s.readReg 2 = -3 →
    ∃ t, exec (.add 1 2 3) s = .next t ∧ t.readReg 3 = 2)

/-- 41_alu.md R141: nor, over all 32 bits. -/
def Obligations.NorWritesTheBitwiseNor : Prop :=
  (∀ (a b d : Reg) (s : State), ∃ t, exec (.nor a b d) s = .next t ∧
    t.readReg d = ~~~(s.readReg a ||| s.readReg b) ∧
    (∀ k < 32, (t.readReg d).getLsbD k = !((s.readReg a).getLsbD k || (s.readReg b).getLsbD k)) ∧
    (a = b → (t.readReg d).toInt = -(s.readReg a).toInt - 1) ∧
    s.SameRegsBut d t ∧ s.SameMemory t ∧ t.pc = s.pc + 1 ∧ s.Counted t) ∧
  (∀ a b d : Reg, encode (.nor a b d) =
    (1 : Word) <<< 22 ||| BitVec.ofNat 32 a.val <<< 19 ||| BitVec.ofNat 32 b.val <<< 16 |||
      BitVec.ofNat 32 d.val) ∧
  (∀ (label t0 t1 t2 : Option Text) (symtab : Symtab) (addr : Nat) (a b d : Reg),
    NamesReg t0 a → NamesReg t1 b → NamesReg t2 d →
      encRecord ⟨label, some "nor".toList, t0, t1, t2⟩ symtab addr = .ok (encode (.nor a b d))) ∧
  encode (.nor 1 2 3) = 4849667 ∧
  (∀ s : State, s.readReg 1 = 5 → s.readReg 2 = 3 →
    ∃ t, exec (.nor 1 2 3) s = .next t ∧ t.readReg 3 = -8)

/-- 42_load_store.md R150: lw loads the word at `x[A] + off` and changes nothing else, or faults with
nothing written where that address is outside `[0, lwc)`. The state a fault leaves is the spec's
decision D15. -/
def Obligations.LwLoadsOrFaults : Prop :=
  (∀ (a b : Reg) (off : Int) (s : State),
    0 ≤ (s.readReg a).toInt + off → (s.readReg a).toInt + off < s.lwc →
    ∃ t, exec (.lw a b off) s = .next t ∧
      s.memRead ((s.readReg a).toInt + off) = some (t.readReg b) ∧
      s.SameRegsBut b t ∧ s.SameMemory t ∧ t.pc = s.pc + 1 ∧ s.Counted t) ∧
  (∀ (a b : Reg) (off : Int) (s : State),
    (s.readReg a).toInt + off < 0 ∨ (s.lwc : Int) ≤ (s.readReg a).toInt + off →
    exec (.lw a b off) s =
      .next (s.faultedBy .memAddrOutOfRange ((s.readReg a).toInt + off)))

/-- 42_load_store.md R151: sw stores `x[B]` at `x[A] + off` and changes nothing else, or faults with
nothing written under the condition of lw. The state a fault leaves is the spec's decision D15. -/
def Obligations.SwStoresOrFaults : Prop :=
  (∀ (a b : Reg) (off : Int) (s : State),
    0 ≤ (s.readReg a).toInt + off → (s.readReg a).toInt + off < s.lwc →
    ∃ t, exec (.sw a b off) s = .next t ∧
      t.memRead ((s.readReg a).toInt + off) = some (s.readReg b) ∧
      s.SameMemoryBut ((s.readReg a).toInt + off) t ∧ s.SameRegs t ∧ t.pc = s.pc + 1 ∧
      s.Counted t) ∧
  (∀ (a b : Reg) (off : Int) (s : State),
    (s.readReg a).toInt + off < 0 ∨ (s.lwc : Int) ≤ (s.readReg a).toInt + off →
    exec (.sw a b off) s =
      .next (s.faultedBy .memAddrOutOfRange ((s.readReg a).toInt + off)))

/-- 42_load_store.md R150 (the spec's own derivation, D28): computing the effective address in
32 bits gives the same verdict, and the same address where there is one. -/
def Obligations.EffectiveAddressWrapIsUnobservable : Prop :=
  ∀ (s : State) (a : Reg) (off : Int), s.lwc ≤ 65536 → -32768 ≤ off → off ≤ 32767 →
    s.inBounds (wrap32 ((s.readReg a).toInt + off)).toInt = s.inBounds (s.effectiveAddress a off) ∧
    (s.inBounds (s.effectiveAddress a off) = true →
      (wrap32 ((s.readReg a).toInt + off)).toInt = s.effectiveAddress a off)

/-- 43_control.md R160: beq checks its target whether or not it is taken (the spec's decision D6), and
then branches exactly on equality. The state a fault leaves is the spec's decision D15. -/
def Obligations.BeqBranchesOrFaults : Prop :=
  (∀ (a b : Reg) (off : Int) (s : State),
    0 ≤ ((s.pc : Int) + 1) + off → ((s.pc : Int) + 1) + off < s.lwc →
    ∃ t, exec (.beq a b off) s = .next t ∧
      (s.readReg a = s.readReg b → (t.pc : Int) = ((s.pc : Int) + 1) + off) ∧
      (s.readReg a ≠ s.readReg b → t.pc = s.pc + 1) ∧
      s.SameRegs t ∧ s.SameMemory t ∧ s.Counted t) ∧
  (∀ (a b : Reg) (off : Int) (s : State),
    ((s.pc : Int) + 1) + off < 0 ∨ (s.lwc : Int) ≤ ((s.pc : Int) + 1) + off →
    exec (.beq a b off) s =
      .next (s.faultedBy .branchTargetOutOfRange (((s.pc : Int) + 1) + off)))

/-- 43_control.md R161: jalr admits a target up to and including `lwc` (the spec's decision D5),
writes the link, and jumps; with equal registers control goes to the link value (90_conflicts.md C2),
stated of states that meet the invariant, so that the link is a 32-bit address. The state a fault
leaves is the spec's decision D15. -/
def Obligations.JalrLinksAndJumpsOrFaults : Prop :=
  (∀ (a b : Reg) (s : State),
    0 ≤ (s.readReg a).toInt → (s.readReg a).toInt ≤ s.lwc →
    ∃ t, exec (.jalr a b) s = .next t ∧
      t.readReg b = wrap32 ((s.pc : Int) + 1) ∧
      (a ≠ b → (t.pc : Int) = (s.readReg a).toInt) ∧
      (a = b → s.Inv → t.pc = s.pc + 1) ∧
      (s.Inv → (t.readReg b).toInt = (s.pc : Int) + 1) ∧
      s.SameRegsBut b t ∧ s.SameMemory t ∧ s.Counted t) ∧
  (∀ (a b : Reg) (s : State),
    (s.readReg a).toInt < 0 ∨ (s.lwc : Int) < (s.readReg a).toInt →
    exec (.jalr a b) s =
      .next (s.faultedBy .jumpTargetOutOfRange (s.readReg a).toInt))

/-- 44_system.md R170: halt ends the run with `pc` past the halt, counts itself, changes no register
and no memory word, nothing wakes the machine, and the host gets the final snapshot and the count. -/
def Obligations.HaltStopsTheMachine : Prop :=
  (∀ s : State, ∃ t, exec .halt s = .next t ∧ t.run = .halted ∧ t.pc = s.pc + 1 ∧
    t.count = s.count + 1 ∧ t.lwc = s.lwc ∧ s.SameRegs t ∧ s.SameMemory t ∧
    (∀ u, step t ≠ .next u) ∧ ∀ cfg : Config, runEnd? cfg t = some (.halted t.snapshot t.count)) ∧
  encode .halt = (6 : Word) <<< 22 ∧ encode .halt = 25165824 ∧
  (∀ w : Word, w.extractLsb' 22 3 = 6 → decode w = .halt) ∧
  (∀ (label t0 t1 t2 : Option Text) (symtab : Symtab) (addr : Nat),
    encRecord ⟨label, some "halt".toList, t0, t1, t2⟩ symtab addr = .ok (encode .halt)) ∧
  (∀ s : State, s.run = .running → s.pc = 1 → s.count = 1 → s.fetch = some 25165824 →
    ∃ t, step s = .next t ∧ t.run = .halted ∧ t.pc = 2 ∧ t.count = 2)

/-- 44_system.md R171: noop changes nothing but the advanced `pc` and the count; as the last word it
leaves `pc = lwc`, where the next fetch is out of range. -/
def Obligations.NoopOnlyAdvances : Prop :=
  (∀ s : State, ∃ t, exec .noop s = .next t ∧ t.pc = s.pc + 1 ∧ s.SameRegs t ∧ s.SameMemory t ∧
    s.Counted t ∧
    (s.pc + 1 = s.lwc → t.pc = s.lwc ∧ t.fetch = none)) ∧
  encode .noop = (7 : Word) <<< 22 ∧ encode .noop = 29360128 ∧
  (∀ w : Word, w.extractLsb' 22 3 = 7 → decode w = .noop) ∧
  (∀ (label t0 t1 t2 : Option Text) (symtab : Symtab) (addr : Nat),
    encRecord ⟨label, some "noop".toList, t0, t1, t2⟩ symtab addr = .ok (encode .noop))

/-! ## The step, faults and the run state -/

/-- 40_cycle.md R130, R133: a step from a running state is the execution of the instruction that the
word at `pc` decodes to. -/
def Obligations.StepRunsTheDecodedInstruction : Prop :=
  ∀ (s : State) (w : Word), s.run = .running → s.memRead s.pc = some w →
    step s = exec (decode w) s

/-- 40_cycle.md R131 (the spec's decision D4): a fetch at or past `lwc` is the fault
`FetchOutOfRange`. The state it leaves is the spec's decision D15. -/
def Obligations.FetchPastTheLoadedWordsFaults : Prop :=
  ∀ s : State, s.run = .running → s.lwc ≤ s.pc →
    step s = .next (s.faultedBy .fetchOutOfRange s.pc)

/-- 00_scope.md R18, 10_state.md R39, 60_exceptions.md R184: a running state has a step and a halted
or faulted one has none. The named host faults are the model's (notes/assumptions/2.md). -/
def Obligations.ExactlyRunningStatesStep : Prop :=
  ∀ s : State, ((∃ t, step s = .next t) ↔ s.run = .running) ∧
    (s.run = .halted → step s = .fault .halted) ∧
    ∀ record, s.run = .faulted record → step s = .fault (.faulted record)

/-- 60_exceptions.md R181, R183, R185, R186 (decisions D4, D6, D15): a running step raises a fault with
a recorded value exactly under the table's condition, and then leaves every other piece of state as
it was. -/
def Obligations.StepFaultsExactlyByTheTable : Prop :=
  ∀ (s : State) (f : RuntimeFault) (value : Int), s.run = .running →
    (step s = .next (s.faultedBy f value) ↔ s.Raises f value)

/-- 10_state.md R39: where one step can take the run state, and what record a fault carries
(60_exceptions.md R183; decision D15). -/
def Obligations.RunStateTransitions : Prop :=
  ∀ s t : State, step s = .next t →
    (t.run = .halted ↔ s.fetch.map decode = some .halt) ∧
    (∀ record, t.run = .faulted record →
      record.pc0 = s.pc ∧ t = s.faultedBy record.fault record.value ∧ s.Raises record.fault record.value) ∧
    (t.run = .running ↔ s.StepSafe ∧ s.fetch.map decode ≠ some .halt)

/-- 40_cycle.md R135, R136 (the spec's own derivation): everything a completed step writes, over all
eight instructions at once. -/
def Obligations.CompletedStepWritesOnlyItsEffects : Prop :=
  ∀ (s t : State) (w : Word), s.run = .running → s.fetch = some w → step s = .next t → t.Unfaulted →
    t.count = s.count + 1 ∧ t.lwc = s.lwc ∧
    (∀ r : Reg, destOf? (decode w) ≠ some r → t.readReg r = s.readReg r) ∧
    (∀ a : Int, storeAddressOf? s (decode w) ≠ some a → t.memRead a = s.memRead a) ∧
    t.run = (if decode w = .halt then .halted else .running)

/-- 70_reset_and_hazards.md R219 (the spec's own derivation): the conditions under which a step raises
no fault are exactly the listed ones. -/
def Obligations.StepIsUnfaultedExactlyInRange : Prop :=
  ∀ s : State, s.run = .running → ((∃ t, step s = .next t ∧ t.Unfaulted) ↔ s.StepSafe)

/-- 10_state.md R40, 60_exceptions.md R193: no instruction reads the count. Two states that differ
only in it take steps to states that differ only in it. -/
def Obligations.NoInstructionReadsTheCount : Prop :=
  ∀ (s t : State) (c : Nat), step s = .next t →
    ∃ t', step { s with count := c } = .next t' ∧ { t' with count := t.count } = t ∧
      t'.count + s.count = t.count + c

/-- 10_state.md R36, 40_cycle.md R131 (decisions D5, D4): a jalr of two different registers to `lwc`
completes, and the next fetch faults. JalrLinksAndJumpsOrFaults says where a jalr of equal registers
goes. The state the fault leaves is the spec's decision D15 and notes/assumptions/1.md. -/
def Obligations.JalrToLwcFaultsAtTheNextFetch : Prop :=
  ∀ (s : State) (w : Word) (a b : Reg), s.run = .running → s.fetch = some w → decode w = .jalr a b →
    a ≠ b → (s.readReg a).toInt = s.lwc →
    ∃ t, step s = .next t ∧ t.run = .running ∧ t.pc = s.lwc ∧ t.readReg b = wrap32 ((s.pc : Int) + 1) ∧
      step t = .next (t.faultedBy .fetchOutOfRange s.lwc)

/-- 20_memory.md R73, 70_reset_and_hazards.md R218 (the spec's own derivation): a word stored over the
next instruction is what the very next step executes. -/
def Obligations.StoreIsSeenByTheNextFetch : Prop :=
  ∀ (s : State) (w : Word) (a b : Reg) (off : Int), s.run = .running → s.fetch = some w →
    decode w = .sw a b off → (s.readReg a).toInt + off = (s.pc : Int) + 1 → s.pc + 1 < s.lwc →
    ∃ t, step s = .next t ∧ t.fetch = some (s.readReg b) ∧ step t = exec (decode (s.readReg b)) t

/-- 43_control.md R160, 70_reset_and_hazards.md R220: a taken beq with displacement -1 branches to
itself for ever; each step only counts. -/
def Obligations.BeqToItselfLoopsForever : Prop :=
  ∀ (s : State) (w : Word) (a b : Reg), s.run = .running → s.fetch = some w →
    decode w = .beq a b (-1) → s.readReg a = s.readReg b →
    ∀ k : Nat, Host.Core.run Sys2Proof.core k s = .next { s with count := s.count + k }

/-! ## Registers, memory, reset, the invariant -/

/-- 10_state.md R31: no register is hardwired; register 0 reads back what was written to it, by an
operation and by an instruction. -/
def Obligations.NoRegisterIsHardwired : Prop :=
  (∀ (s : State) (r r' : Reg) (v : Word),
    (s.writeReg r v).readReg r = v ∧ (r' ≠ r → (s.writeReg r v).readReg r' = s.readReg r')) ∧
  ∀ (s : State) (a b : Reg), ∃ t, exec (.add a b 0) s = .next t ∧
    t.readReg 0 = wrap32 ((s.readReg a).toInt + (s.readReg b).toInt)

/-- 20_memory.md R60, R63, R70: the two memory primitives are defined exactly below `lwc`, a read
gives the last write, and a write changes no other address and no other state. -/
def Obligations.MemoryReadsTheLastWrite : Prop :=
  ∀ (s : State) (a : Int) (v : Word),
    ((∃ w, s.memRead a = some w) ↔ 0 ≤ a ∧ a < s.lwc) ∧
    ((∃ t, s.memWrite a v = some t) ↔ 0 ≤ a ∧ a < s.lwc) ∧
    ∀ t, s.memWrite a v = some t →
      t.memRead a = some v ∧ (∀ b, b ≠ a → t.memRead b = s.memRead b) ∧ { t with mem := s.mem } = s

/-- The model's canonical form of memory (notes/assumptions/3.md): contents that read the same are
equal data. -/
def Obligations.CanonicalMemoriesAreDeterminedByTheirReads : Prop :=
  ∀ m m' : Memory, m.wf → m'.wf → (∀ a : Nat, m.get a = m'.get a) → m = m'

/-- 10_state.md R44: the reset value of every piece of state, for every image. -/
def Obligations.ResetStateOfAnImage : Prop :=
  ∀ img : List Word,
    (∀ r : Reg, (State.ofImage img).readReg r = 0) ∧ (State.ofImage img).pc = 0 ∧
    (∀ (i : Nat) (h : i < img.length), (State.ofImage img).memRead i = some img[i]) ∧
    (∀ a : Int, a < 0 ∨ (img.length : Int) ≤ a → (State.ofImage img).memRead a = none) ∧
    (State.ofImage img).lwc = img.length ∧ (State.ofImage img).run = .running ∧
    (State.ofImage img).count = 0

/-- The state after reset is the reset for the image of no words (notes/assumptions/4.md), whose first
fetch faults (70_reset_and_hazards.md R212), and it meets the invariant. -/
def Obligations.ResetIsTheEmptyImageAndMeetsInv : Prop :=
  State.reset = State.ofImage [] ∧ State.reset.Inv ∧
    step State.reset = .next (State.reset.faultedBy .fetchOutOfRange 0)

/-- The reset state of every image that fits the memory meets the invariant (10_state.md R36, R38, R44;
the canonical form is notes/assumptions/3.md). -/
def Obligations.EveryLoadedImageMeetsInv : Prop :=
  ∀ img : List Word, img.length ≤ 65536 → (State.ofImage img).Inv

/-- 10_state.md R36, R38, R43, 20_memory.md R62 (the first is the spec's own derivation, the canonical
form is notes/assumptions/3.md): every step keeps the invariant. -/
def Obligations.EveryStepKeepsInv : Prop :=
  ∀ s t : State, s.Inv → step s = .next t → t.Inv

/-! ## The loader and printed words -/

/-- 00_scope.md R22: a word prints as a signed base-10 integer of its own value, which reads back. -/
def Obligations.PrintedWordReadsBack : Prop :=
  ∀ w : Word, -(2 : Int) ^ 31 ≤ w.toInt ∧ w.toInt ≤ 2 ^ 31 - 1 ∧
    (∃ ds : Text, ds ≠ [] ∧ (∀ c ∈ ds, '0' ≤ c ∧ c ≤ '9') ∧
      printWord w = if w.toInt < 0 then '-' :: ds else ds) ∧
    parseInt? (printWord w) = some w.toInt

/-- 70_reset_and_hazards.md R211, R212 (decision D16): the loader accepts exactly the images of at most
65536 lines whose every line is a well-formed integer in range, and gives their reset state. -/
def Obligations.LoaderAcceptsExactlyWellFormedImages : Prop :=
  ∀ (lines : List Text) (s : State), load lines = .ok s ↔
    lines.length ≤ 65536 ∧ ∃ img : List Word, s = State.ofImage img ∧
      List.Forall₂ (fun line w => ∃ v : Int, parseInt? line = some v ∧
        -(2 : Int) ^ 31 ≤ v ∧ v ≤ 2 ^ 31 - 1 ∧ w = wrap32 v) lines img

/-- 70_reset_and_hazards.md R211, R212 (decision D16): which error the loader reports. -/
def Obligations.LoaderReportsTheFirstBadLine : Prop :=
  (∀ lines : List Text, 65536 < lines.length → load lines = .error (.imageTooLarge lines.length)) ∧
  ∀ (good bad : List Text) (line : Text), (good ++ line :: bad).length ≤ 65536 →
    (∀ l ∈ good, ∃ v : Int, parseInt? l = some v ∧ wordInRange v = true) →
    (parseInt? line = none → load (good ++ line :: bad) = .error (.badWordLine good.length line)) ∧
    ∀ v : Int, parseInt? line = some v → (v < -(2 : Int) ^ 31 ∨ 2 ^ 31 - 1 < v) →
      load (good ++ line :: bad) = .error (.wordOutOfRange good.length line)

/-- 30_encoding.md R118, 70_reset_and_hazards.md R211, R212, R215: what the assembler prints, the loader
loads, record `i`'s word at address `i`; an output past the capacity is refused. The loader's line
grammar and the refusal are the spec's decision D16. -/
def Obligations.AssembledOutputLoadsWordForRecord : Prop :=
  ∀ (recs : List Record) (texts : List Text), assembleOutput recs = .ok texts →
    ∃ symtab n, pass1 recs = .ok (symtab, n) ∧ texts.length = recs.length ∧
      (recs.length ≤ 65536 → ∃ s, load texts = .ok s ∧ s.lwc = recs.length ∧ s.pc = 0 ∧
        s.run = .running ∧
        ∀ (i : Nat) (r : Record), recs[i]? = some r →
          ∃ w, encRecord r symtab i = .ok w ∧ s.memRead i = some w) ∧
      (65536 < recs.length → load texts = .error (.imageTooLarge recs.length))

/-! ## The encoder block -/

/-- 30_encoding.md R96, R98, 10_state.md R46 (R97 is decision D7): the symbol table pass 1 gives maps a
label to an address exactly when the record there defines it, and the count is the number of records. -/
def Obligations.SymbolTableHoldsEveryLabelsAddress : Prop :=
  ∀ (recs : List Record) (symtab : Symtab) (n : Nat), pass1 recs = .ok (symtab, n) →
    n = recs.length ∧
    ∀ (l : Text) (addr : Nat), symtabFind symtab l = some addr ↔ labelAt recs addr = some l

/-- 30_encoding.md R97 (decision D7): pass 1 fails exactly at the first record that defines a label
an earlier record defines. -/
def Obligations.DuplicateLabelIsReportedAtItsSecondRecord : Prop :=
  ∀ (recs : List Record) (e : AsmError), pass1 recs = .error e ↔
    ∃ addr l, e = .duplicateLabel addr l ∧ labelAt recs addr = some l ∧
      (∃ j < addr, labelAt recs j = some l) ∧
      ∀ k < addr, ∀ l', labelAt recs k = some l' → ∀ j < k, labelAt recs j ≠ some l'

/-- 00_scope.md R15, 30_encoding.md R118: on success word `i` is the encoding of record `i`. -/
def Obligations.AssembledWordsAreTheRecordsEncodings : Prop :=
  ∀ (recs : List Record) (ws : List Word), assemble recs = .ok ws ↔
    ∃ symtab n, pass1 recs = .ok (symtab, n) ∧ ws.length = recs.length ∧
      ∀ (i : Nat) (r : Record), recs[i]? = some r →
        ∃ w, ws[i]? = some w ∧ encRecord r symtab i = .ok w

/-- 30_encoding.md R116, R117 (decisions D14, D25): an error of pass 1 comes first, then the first
failing record's, and the error is the whole result. -/
def Obligations.FirstAssemblyErrorIsTheResult : Prop :=
  ∀ (recs : List Record) (e : AsmError), assemble recs = .error e ↔
    pass1 recs = .error e ∨
    ∃ symtab n, pass1 recs = .ok (symtab, n) ∧ ∃ i r, recs[i]? = some r ∧
      encRecord r symtab i = .error e ∧
      ∀ j < i, ∀ r', recs[j]? = some r' → ∃ w, encRecord r' symtab j = .ok w

/-- 30_encoding.md R100 (R99 and the signs it admits are decisions D8 and D29): a register operand is
accepted exactly when its text is an integer in [0, 7]. -/
def Obligations.RegisterOperandMustBeZeroToSeven : Prop :=
  (∀ (t : Option Text) (addr : Nat) (r : Reg), regOperand t addr = .ok r ↔ NamesReg t r) ∧
  (∀ addr : Nat, regOperand none addr = .error (.missingOperand addr)) ∧
  ∀ (x : Text) (addr : Nat), (parseInt? x = none ∨ ∃ v : Int, parseInt? x = some v ∧ (v < 0 ∨ 7 < v)) →
    regOperand (some x) addr = .error (.badRegister addr x)

/-- 30_encoding.md R102: a literal offset is used as it is, by lw, sw and beq alike, and is fatal
outside the 16-bit range. -/
def Obligations.LiteralOffsetIsUsedAsIs : Prop :=
  ∀ (x : Text) (v : Int) (o : Opcode) (symtab : Symtab) (addr : Nat), parseInt? x = some v →
    (-32768 ≤ v → v ≤ 32767 →
      ∃ f, offsetOperand (some x) o symtab addr = .ok f ∧ sext16 f = v) ∧
    (v < -32768 ∨ 32767 < v →
      offsetOperand (some x) o symtab addr = .error (.offsetOutOfRange addr x))

/-- 30_encoding.md R103 to R106 (R105 is decision D12): a label offset, its checks, and the asymmetry of
lw and sw against beq. -/
def Obligations.LabelOffsetIsAbsoluteOrRelative : Prop :=
  ∀ (x : Text) (o : Opcode) (symtab : Symtab) (addr : Nat), parseInt? x = none →
    (symtabFind symtab x = none → offsetOperand (some x) o symtab addr = .error (.undefinedLabel addr x)) ∧
    ∀ l : Nat, symtabFind symtab x = some l →
      (32767 < l → offsetOperand (some x) o symtab addr = .error (.offsetOutOfRange addr x)) ∧
      (l ≤ 32767 → o ≠ .beq → ∃ f, offsetOperand (some x) o symtab addr = .ok f ∧ sext16 f = l) ∧
      (l ≤ 32767 → o = .beq → -32768 ≤ (l : Int) - ((addr : Int) + 1) →
        ∃ f, offsetOperand (some x) o symtab addr = .ok f ∧ sext16 f = (l : Int) - ((addr : Int) + 1)) ∧
      (l ≤ 32767 → o = .beq → (l : Int) - ((addr : Int) + 1) < -32768 →
        offsetOperand (some x) o symtab addr = .error (.offsetOutOfRange addr x))

/-- 30_encoding.md R104 with 43_control.md R160: a taken beq assembled from a label goes to the label's
address when it runs at the record's own address. -/
def Obligations.TakenBranchLandsOnItsLabel : Prop :=
  ∀ (r : Record) (symtab : Symtab) (l : Nat) (w : Word) (s : State),
    SourceOp.ofText? r.opcode = some (.instr .beq) → NamesLabel symtab r.op2 l →
    encRecord r symtab s.pc = .ok w → s.run = .running → s.fetch = some w → l < s.lwc →
    ∃ a b off, decode w = .beq a b off ∧
      (s.readReg a = s.readReg b → ∃ t, step s = .next t ∧ t.pc = l ∧ t.run = .running)

/-- 30_encoding.md R111, R112, R124 (R112 is decision D13, the absent operand decision D10): what the
encoder answers for a `.fill` record, its word, its range and its errors. -/
def Obligations.FillMakesTheWordOrFails : Prop :=
  ∀ (r : Record) (symtab : Symtab) (addr : Nat), SourceOp.ofText? r.opcode = some .fill →
    (r.op0 = none → encRecord r symtab addr = .error (.missingOperand addr)) ∧
    ∀ x : Text, r.op0 = some x →
      (∀ v : Int, parseInt? x = some v →
        (-(2 : Int) ^ 31 ≤ v → v ≤ 2 ^ 31 - 1 →
          ∃ w, encRecord r symtab addr = .ok w ∧ w.toInt = v) ∧
        (v < -(2 : Int) ^ 31 ∨ 2 ^ 31 - 1 < v →
          encRecord r symtab addr = .error (.fillOutOfRange addr x))) ∧
      (parseInt? x = none →
        (symtabFind symtab x = none → encRecord r symtab addr = .error (.undefinedLabel addr x)) ∧
        ∀ l : Nat, symtabFind symtab x = some l →
          (l < 2 ^ 31 → ∃ w, encRecord r symtab addr = .ok w ∧ w.toInt = l) ∧
          (2 ^ 31 ≤ l → encRecord r symtab addr = .error (.fillOutOfRange addr x)))

/-- 30_encoding.md R113: any opcode text but the nine is the fatal `UnrecognizedOpcode`, and so is an
absent one; the nine never are. -/
def Obligations.OtherOpcodeTextIsUnrecognized : Prop :=
  ∀ (r : Record) (symtab : Symtab) (addr : Nat),
    ((∀ t ∈ ["add", "nor", "lw", "sw", "beq", "jalr", "halt", "noop", ".fill"],
        r.opcode ≠ some t.toList) →
      encRecord r symtab addr = .error (.unrecognizedOpcode addr r.opcode)) ∧
    ((∃ t ∈ ["add", "nor", "lw", "sw", "beq", "jalr", "halt", "noop", ".fill"],
        r.opcode = some t.toList) →
      ∀ a x, encRecord r symtab addr ≠ .error (.unrecognizedOpcode a x))

/-- 30_encoding.md R114 (decision D9), R122: each of the nine opcode texts names its own operation or
the directive, exactly as it is spelled, and no other text names anything. -/
def Obligations.EachOpcodeTextNamesItsOwnOperation : Prop :=
  ∀ (t : Option Text) (op : SourceOp), SourceOp.ofText? t = some op ↔
    ∃ x : String, t = some x.toList ∧
      (x, op) ∈ [("add", SourceOp.instr .add), ("nor", .instr .nor), ("lw", .instr .lw),
        ("sw", .instr .sw), ("beq", .instr .beq), ("jalr", .instr .jalr), ("halt", .instr .halt),
        ("noop", .instr .noop), (".fill", .fill)]

/-- 30_encoding.md R115, R116, R124 (decisions D10, D14): an operand the format does not read is ignored
whatever it holds; the first of op0, op1, op2 that fails, each by its own rule, gives the record's
error; and an absent operand the format reads is `MissingOperand`. -/
def Obligations.OnlyReadOperandsMatter : Prop :=
  (∀ (r r' : Record) (symtab : Symtab) (addr : Nat), r'.opcode = r.opcode →
    (SourceOp.ofText? r.opcode = some (.instr .jalr) → r'.op0 = r.op0 → r'.op1 = r.op1 →
      encRecord r' symtab addr = encRecord r symtab addr) ∧
    (SourceOp.ofText? r.opcode = some (.instr .halt) ∨ SourceOp.ofText? r.opcode = some (.instr .noop) →
      encRecord r' symtab addr = encRecord r symtab addr) ∧
    (SourceOp.ofText? r.opcode = some .fill → r'.op0 = r.op0 →
      encRecord r' symtab addr = encRecord r symtab addr)) ∧
  (∀ (r : Record) (symtab : Symtab) (addr : Nat) (o : Opcode) (a b : Reg) (e : AsmError),
    SourceOp.ofText? r.opcode = some (.instr o) → o.format ≠ .oType →
    (regOperand r.op0 addr = .error e → encRecord r symtab addr = .error e) ∧
    (regOperand r.op0 addr = .ok a → regOperand r.op1 addr = .error e →
      encRecord r symtab addr = .error e) ∧
    (o.format = .rType → regOperand r.op0 addr = .ok a → regOperand r.op1 addr = .ok b →
      regOperand r.op2 addr = .error e → encRecord r symtab addr = .error e) ∧
    (o.format = .iType → regOperand r.op0 addr = .ok a → regOperand r.op1 addr = .ok b →
      offsetOperand r.op2 o symtab addr = .error e → encRecord r symtab addr = .error e)) ∧
  ∀ (r : Record) (symtab : Symtab) (addr : Nat) (o : Opcode) (a b : Reg),
    SourceOp.ofText? r.opcode = some (.instr o) → o.format ≠ .oType →
    (r.op0 = none → encRecord r symtab addr = .error (.missingOperand addr)) ∧
    (NamesReg r.op0 a → r.op1 = none → encRecord r symtab addr = .error (.missingOperand addr)) ∧
    (o.format ≠ .jType → NamesReg r.op0 a → NamesReg r.op1 b → r.op2 = none →
      encRecord r symtab addr = .error (.missingOperand addr))

/-! ## Runs -/

/-- 60_exceptions.md R194 (decision D17): where the cycle limit stops a run, and that it stops none
otherwise. -/
def Obligations.CycleLimitStopsBeforeTheFetch : Prop :=
  (∀ (cfg : Config) (n fuel : Nat) (s : State), cfg.maxCycles = some n → s.run = .running →
    n ≤ s.count → runTrace cfg fuel s = ([], .nonTerminating s)) ∧
  ∀ (cfg : Config) (fuel : Nat) (s u : State), (runTrace cfg fuel s).2 = .nonTerminating u →
    u.run = .running ∧ ∃ n, cfg.maxCycles = some n ∧ n ≤ u.count

/-- 60_exceptions.md R194 (decision D17), 70_reset_and_hazards.md R216, R220: with a cycle limit every
run ends, from every state, within as many steps as the limit leaves. -/
def Obligations.CappedRunAlwaysEnds : Prop :=
  ∀ (cfg : Config) (n fuel : Nat) (s u : State), cfg.maxCycles = some n → n ≤ s.count + fuel →
    (runTrace cfg fuel s).2 ≠ .notOver u

/-- 60_exceptions.md R194 (decision D17): a run that halts after at most `n` instructions is the same
run under the cap `n`. -/
def Obligations.CapDoesNotChangeARunThatHaltsWithinIt : Prop :=
  ∀ (len n fuel : Nat) (s : State) (trace : List Snapshot) (final : Snapshot) (c : Nat),
    runTrace { maxCycles := none, maxLineLength := len } fuel s = (trace, .halted final c) → c ≤ n →
    runTrace { maxCycles := some n, maxLineLength := len } fuel s = (trace, .halted final c)

/-- 10_state.md R47, 00_scope.md R19, 44_system.md R170: a snapshot holds the state's pc, registers and
loaded words; the trace of every run is the snapshots of the states its steps begin in, in order; and
a run that halts reports the state it halts in and the count of the instructions it executed, past
the halt instruction with registers and memory unchanged. -/
def Obligations.HaltedRunReportsItsCountAndSnapshots : Prop :=
  (∀ s : State, s.snapshot.pc = s.pc ∧ (∀ r : Reg, s.snapshot.regs[r] = s.readReg r) ∧
    s.snapshot.mem.length = s.lwc ∧
    ∀ (i : Nat) (h : i < s.snapshot.mem.length), s.memRead i = some s.snapshot.mem[i]) ∧
  (∀ (cfg : Config) (fuel : Nat) (s : State) (i : Nat), i < (runTrace cfg fuel s).1.length →
    ∃ u : State, Host.Core.run Sys2Proof.core i s = .next u ∧ u.run = .running ∧
      (runTrace cfg fuel s).1[i]? = some u.snapshot) ∧
  ∀ (cfg : Config) (fuel : Nat) (s : State) (trace : List Snapshot) (final : Snapshot) (c : Nat),
    s.run = .running → runTrace cfg fuel s = (trace, .halted final c) →
    s.count + trace.length = c ∧
    (∃ t : State, Host.Core.run Sys2Proof.core trace.length s = .next t ∧ t.run = .halted ∧
      final = t.snapshot ∧ c = t.count) ∧
    ∃ u : State, trace.getLast? = some u.snapshot ∧ u.fetch.map decode = some .halt ∧
      final = { u.snapshot with pc := u.pc + 1 }

/-- 60_exceptions.md R189: zero at halt, non-zero after every fatal error. -/
def Obligations.ExitStatusIsZeroExactlyAtHalt : Prop :=
  (∀ (cfg : Config) (fuel : Nat) (s : State),
    ((runTrace cfg fuel s).2.exitStatus? = some .zero ↔ ∃ f c, (runTrace cfg fuel s).2 = .halted f c) ∧
    ((runTrace cfg fuel s).2.exitStatus? = some .nonZero ↔
      ∃ record, (runTrace cfg fuel s).2 = .faulted record)) ∧
  (∀ (recs : List Record) (e : AsmError), assemble recs = .error e →
    errorExitStatus? (assemble recs) = some .nonZero) ∧
  ∀ (lines : List Text) (e : InputError), load lines = .error e →
    errorExitStatus? (load lines) = some .nonZero
end

