-- ==== Sys2Proof/Laws/Assembler.lean ====
section
/-! SUPPORT. The encoder on one record, by what its opcode text names. -/

namespace Sys2Proof.Machine

theorem encRecord_fill {r : Record} (h : SourceOp.ofText? r.opcode = some .fill) (symtab : Symtab)
    (addr : Nat) : encRecord r symtab addr = fillOperand r.op0 symtab addr := by
  simp only [encRecord, h]

theorem encRecord_rType {r : Record} {o : Opcode} (h : SourceOp.ofText? r.opcode = some (.instr o))
    (hf : o.format = .rType) (symtab : Symtab) (addr : Nat) :
    encRecord r symtab addr = encRType o r addr := by
  simp only [encRecord, h, hf]

theorem encRecord_iType {r : Record} {o : Opcode} (h : SourceOp.ofText? r.opcode = some (.instr o))
    (hf : o.format = .iType) (symtab : Symtab) (addr : Nat) :
    encRecord r symtab addr = encIType o r symtab addr := by
  simp only [encRecord, h, hf]

theorem encRecord_jType {r : Record} {o : Opcode} (h : SourceOp.ofText? r.opcode = some (.instr o))
    (hf : o.format = .jType) (symtab : Symtab) (addr : Nat) :
    encRecord r symtab addr = encJType o r addr := by
  simp only [encRecord, h, hf]

theorem encRecord_oType {r : Record} {o : Opcode} (h : SourceOp.ofText? r.opcode = some (.instr o))
    (hf : o.format = .oType) (symtab : Symtab) (addr : Nat) :
    encRecord r symtab addr = .ok (packO o) := by
  simp only [encRecord, h, hf]

theorem encRecord_of_unknown {r : Record} (h : SourceOp.ofText? r.opcode = none) (symtab : Symtab)
    (addr : Nat) : encRecord r symtab addr = .error (.unrecognizedOpcode addr r.opcode) := by
  simp only [encRecord, h]

end Sys2Proof.Machine
end

