-- ==== Sys2Proof/Laws/Memory.lean ====
section
/-! SUPPORT. The laws of memory contents: what an address reads as after each operation, and that
every operation keeps the canonical form. -/

namespace Sys2Proof.Machine

/-! ## Reads -/

theorem Memory.get_erase (m : Memory) (a b : Nat) :
    (m.erase a).get b = if b = a then Memory.unlisted else m.get b := by
  induction m with
  | nil => simp [Memory.erase, Memory.get]
  | cons c rest ih =>
    obtain ⟨k, w⟩ := c
    by_cases hk : k = a
    · subst hk
      have he : Memory.erase ((k, w) :: rest) k = Memory.erase rest k := by simp [Memory.erase]
      rw [he, ih]
      by_cases hb : b = k
      · simp [hb]
      · simp [hb, Memory.get, Ne.symm hb]
    · have he : Memory.erase ((k, w) :: rest) a = (k, w) :: Memory.erase rest a := by
        simp [Memory.erase, hk]
      rw [he]
      simp only [Memory.get, ih]
      by_cases hb : k = b
      · subst hb
        simp [hk]
      · simp [hb]

theorem Memory.get_insert (m : Memory) (a b : Nat) (v : Word) (hne : ∀ c ∈ m, c.1 ≠ a) :
    (m.insert a v).get b = if b = a then v else m.get b := by
  induction m with
  | nil =>
    by_cases hb : b = a
    · simp [Memory.insert, Memory.get, hb]
    · simp [Memory.insert, Memory.get, hb, Ne.symm hb]
  | cons c rest ih =>
    obtain ⟨k, w⟩ := c
    have hk : k ≠ a := hne (k, w) (by simp)
    have ih' := ih fun c hc => hne c (by simp [hc])
    by_cases hlt : a < k
    · by_cases hb : b = a
      · simp [Memory.insert, Memory.get, hlt, hb]
      · simp [Memory.insert, Memory.get, hlt, hb, Ne.symm hb]
    · simp only [Memory.insert, hlt, if_false, Memory.get, ih']
      by_cases hb : k = b
      · subst hb
        simp [hk]
      · simp [hb]

theorem Memory.mem_erase {m : Memory} {a : Nat} {c : Cell} (h : c ∈ m.erase a) : c ∈ m ∧ c.1 ≠ a := by
  simpa [Memory.erase] using h

/-- An address reads back what was put there, and every other address reads as before. -/
theorem Memory.get_put (m : Memory) (a b : Nat) (v : Word) :
    (m.put a v).get b = if b = a then v else m.get b := by
  unfold Memory.put
  by_cases hv : v = Memory.unlisted
  · rw [if_pos hv, Memory.get_erase, hv]
  · rw [if_neg hv, Memory.get_insert _ _ _ _ (fun c hc => (Memory.mem_erase hc).2), Memory.get_erase]
    by_cases hb : b = a <;> simp [hb]

/-- The words of an image stand at consecutive addresses; every other address is unlisted. -/
theorem Memory.get_ofWordsFrom (ws : List Word) (a b : Nat) :
    (Memory.ofWordsFrom a ws).get b =
      if a ≤ b then (ws[b - a]?).getD Memory.unlisted else Memory.unlisted := by
  induction ws generalizing a with
  | nil => simp [Memory.ofWordsFrom, Memory.get]
  | cons w ws ih =>
    have hrest : a ≠ b → (Memory.ofWordsFrom (a + 1) ws).get b =
        if a ≤ b then (((w :: ws)[b - a]?).getD Memory.unlisted) else Memory.unlisted := by
      intro hab
      rw [ih]
      by_cases hle : a + 1 ≤ b
      · have hsub : b - a = (b - (a + 1)) + 1 := by omega
        simp [hle, Nat.le_of_succ_le hle, hsub]
      · have : ¬ a ≤ b := by omega
        simp [hle, this]
    by_cases hab : a = b
    · subst hab
      by_cases hw : w = Memory.unlisted
      · simp [Memory.ofWordsFrom, hw, ih]
      · simp [Memory.ofWordsFrom, hw, Memory.get]
    · by_cases hw : w = Memory.unlisted
      · rw [Memory.ofWordsFrom, if_pos hw]
        exact hrest hab
      · simp only [Memory.ofWordsFrom, hw, if_false, Memory.get, hab]
        exact hrest hab

/-! ## The canonical form -/

theorem Memory.wf_nil : Memory.wf [] := by simp [Memory.wf]

theorem Memory.wf_erase {m : Memory} (h : m.wf) (a : Nat) : (m.erase a).wf :=
  ⟨h.1.filter _, fun c hc => h.2 c (Memory.mem_erase hc).1⟩

theorem Memory.mem_insert {m : Memory} {a : Nat} {v : Word} {c : Cell} (h : c ∈ m.insert a v) :
    c = (a, v) ∨ c ∈ m := by
  induction m with
  | nil => simpa [Memory.insert] using h
  | cons d rest ih =>
    obtain ⟨k, w⟩ := d
    by_cases hlt : a < k
    · simpa [Memory.insert, hlt] using h
    · simp only [Memory.insert, hlt, if_false, List.mem_cons] at h
      obtain rfl | h := h
      · simp
      · exact (ih h).imp_right fun h => List.mem_cons_of_mem _ h

theorem Memory.wf_insert {m : Memory} (h : m.wf) (a : Nat) (v : Word) (hv : v ≠ Memory.unlisted)
    (hne : ∀ c ∈ m, c.1 ≠ a) : (m.insert a v).wf := by
  refine ⟨?_, fun c hc => ?_⟩
  · replace h := h.1
    induction m with
    | nil => simp [Memory.insert]
    | cons d rest ih =>
      obtain ⟨k, w⟩ := d
      rw [List.pairwise_cons] at h
      have hk : k ≠ a := hne (k, w) (by simp)
      by_cases hlt : a < k
      · simp only [Memory.insert, hlt, if_true, List.pairwise_cons]
        refine ⟨fun c hc => ?_, h⟩
        obtain rfl | hc := List.mem_cons.1 hc
        · exact hlt
        · exact Nat.lt_trans hlt (h.1 c hc)
      · simp only [Memory.insert, hlt, if_false, List.pairwise_cons]
        refine ⟨fun c hc => ?_, ih (fun c hc => hne c (by simp [hc])) h.2⟩
        obtain rfl | hc := Memory.mem_insert hc
        · show k < a
          omega
        · exact h.1 c hc
  · obtain rfl | hc := Memory.mem_insert hc
    · exact hv
    · exact h.2 c hc

/-- A write keeps the canonical form. -/
theorem Memory.wf_put {m : Memory} (h : m.wf) (a : Nat) (v : Word) : (m.put a v).wf := by
  unfold Memory.put
  by_cases hv : v = Memory.unlisted
  · rw [if_pos hv]
    exact Memory.wf_erase h a
  · rw [if_neg hv]
    exact Memory.wf_insert (Memory.wf_erase h a) a v hv fun c hc => (Memory.mem_erase hc).2

/-- A write below a bound leaves every listed address below it. -/
theorem Memory.below_put {m : Memory} {n a : Nat} (v : Word) (h : ∀ c ∈ m, c.1 < n) (ha : a < n) :
    ∀ c ∈ m.put a v, c.1 < n := by
  intro c hc
  unfold Memory.put at hc
  by_cases hv : v = Memory.unlisted
  · rw [if_pos hv] at hc
    exact h c (Memory.mem_erase hc).1
  · rw [if_neg hv] at hc
    obtain rfl | hc := Memory.mem_insert hc
    · exact ha
    · exact h c (Memory.mem_erase hc).1

theorem Memory.mem_ofWordsFrom {ws : List Word} {a : Nat} {c : Cell}
    (h : c ∈ Memory.ofWordsFrom a ws) : a ≤ c.1 ∧ c.1 < a + ws.length ∧ c.2 ≠ Memory.unlisted := by
  induction ws generalizing a with
  | nil => simp [Memory.ofWordsFrom] at h
  | cons w ws ih =>
    have hrest : c ∈ Memory.ofWordsFrom (a + 1) ws →
        a ≤ c.1 ∧ c.1 < a + (w :: ws).length ∧ c.2 ≠ Memory.unlisted := fun h => by
      obtain ⟨h1, h2, h3⟩ := ih h
      refine ⟨by omega, ?_, h3⟩
      rw [List.length_cons]
      omega
    by_cases hw : w = Memory.unlisted
    · simp only [Memory.ofWordsFrom, hw, if_true] at h
      exact hrest h
    · simp only [Memory.ofWordsFrom, hw, if_false, List.mem_cons] at h
      obtain rfl | h := h
      · simp [hw]
      · exact hrest h

/-- The contents of an image are in canonical form. -/
theorem Memory.wf_ofWordsFrom (ws : List Word) (a : Nat) : (Memory.ofWordsFrom a ws).wf := by
  refine ⟨?_, fun c hc => (Memory.mem_ofWordsFrom hc).2.2⟩
  induction ws generalizing a with
  | nil => simp [Memory.ofWordsFrom]
  | cons w ws ih =>
    by_cases hw : w = Memory.unlisted
    · simpa only [Memory.ofWordsFrom, hw, if_true] using ih (a + 1)
    · simp only [Memory.ofWordsFrom, hw, if_false, List.pairwise_cons]
      exact ⟨fun c hc => (Memory.mem_ofWordsFrom hc).1, ih (a + 1)⟩

/-- The memory after reset is in canonical form. -/
theorem State.reset_mem_wf : State.reset.mem.wf := Memory.wf_nil

end Sys2Proof.Machine
end

