-- ==== Sys2Proof/Laws/State.lean ====
section
/-! SUPPORT. One lemma per field per update of State, and what reading a register or a memory word
after an update gives. -/

namespace Sys2Proof.Machine

/-! ## Fields after each update -/

@[simp] theorem State.advance_pc (s : State) : s.advance.pc = s.pc + 1 := rfl
@[simp] theorem State.advance_regs (s : State) : s.advance.regs = s.regs := rfl
@[simp] theorem State.advance_mem (s : State) : s.advance.mem = s.mem := rfl
@[simp] theorem State.advance_lwc (s : State) : s.advance.lwc = s.lwc := rfl
@[simp] theorem State.advance_run (s : State) : s.advance.run = s.run := rfl
@[simp] theorem State.advance_count (s : State) : s.advance.count = s.count := rfl

@[simp] theorem State.setPc_pc (s : State) (t : Nat) : (s.setPc t).pc = t := rfl
@[simp] theorem State.setPc_regs (s : State) (t : Nat) : (s.setPc t).regs = s.regs := rfl
@[simp] theorem State.setPc_mem (s : State) (t : Nat) : (s.setPc t).mem = s.mem := rfl
@[simp] theorem State.setPc_lwc (s : State) (t : Nat) : (s.setPc t).lwc = s.lwc := rfl
@[simp] theorem State.setPc_run (s : State) (t : Nat) : (s.setPc t).run = s.run := rfl
@[simp] theorem State.setPc_count (s : State) (t : Nat) : (s.setPc t).count = s.count := rfl

@[simp] theorem State.enterHalted_pc (s : State) : s.enterHalted.pc = s.pc := rfl
@[simp] theorem State.enterHalted_regs (s : State) : s.enterHalted.regs = s.regs := rfl
@[simp] theorem State.enterHalted_mem (s : State) : s.enterHalted.mem = s.mem := rfl
@[simp] theorem State.enterHalted_lwc (s : State) : s.enterHalted.lwc = s.lwc := rfl
@[simp] theorem State.enterHalted_run (s : State) : s.enterHalted.run = .halted := rfl
@[simp] theorem State.enterHalted_count (s : State) : s.enterHalted.count = s.count := rfl

@[simp] theorem State.writeReg_pc (s : State) (r : Reg) (v : Word) : (s.writeReg r v).pc = s.pc := rfl
@[simp] theorem State.writeReg_mem (s : State) (r : Reg) (v : Word) : (s.writeReg r v).mem = s.mem := rfl
@[simp] theorem State.writeReg_lwc (s : State) (r : Reg) (v : Word) : (s.writeReg r v).lwc = s.lwc := rfl
@[simp] theorem State.writeReg_run (s : State) (r : Reg) (v : Word) : (s.writeReg r v).run = s.run := rfl
@[simp] theorem State.writeReg_count (s : State) (r : Reg) (v : Word) :
    (s.writeReg r v).count = s.count := rfl

@[simp] theorem State.faultedBy_pc (s : State) (f : RuntimeFault) (v : Int) :
    (s.faultedBy f v).pc = s.pc := rfl
@[simp] theorem State.faultedBy_regs (s : State) (f : RuntimeFault) (v : Int) :
    (s.faultedBy f v).regs = s.regs := rfl
@[simp] theorem State.faultedBy_mem (s : State) (f : RuntimeFault) (v : Int) :
    (s.faultedBy f v).mem = s.mem := rfl
@[simp] theorem State.faultedBy_lwc (s : State) (f : RuntimeFault) (v : Int) :
    (s.faultedBy f v).lwc = s.lwc := rfl
@[simp] theorem State.faultedBy_run (s : State) (f : RuntimeFault) (v : Int) :
    (s.faultedBy f v).run = .faulted { fault := f, pc0 := s.pc, value := v } := rfl
@[simp] theorem State.faultedBy_count (s : State) (f : RuntimeFault) (v : Int) :
    (s.faultedBy f v).count = s.count := rfl

/-! ## Registers -/

/-- Reads depend on the registers alone. -/
theorem State.readReg_congr {s t : State} (h : t.regs = s.regs) (r : Reg) :
    t.readReg r = s.readReg r := by
  unfold State.readReg
  rw [h]

@[simp] theorem State.readReg_advance (s : State) (r : Reg) : s.advance.readReg r = s.readReg r := rfl
@[simp] theorem State.readReg_setPc (s : State) (t : Nat) (r : Reg) :
    (s.setPc t).readReg r = s.readReg r := rfl
@[simp] theorem State.readReg_enterHalted (s : State) (r : Reg) :
    s.enterHalted.readReg r = s.readReg r := rfl

/-- A register reads back what was written, and every other register reads as before. -/
theorem State.readReg_writeReg (s : State) (r r' : Reg) (v : Word) :
    (s.writeReg r v).readReg r' = if r' = r then v else s.readReg r' := by
  simp only [State.readReg, State.writeReg, Fin.getElem_fin]
  rw [Vector.getElem_set]
  by_cases h : r' = r
  · simp [h]
  · have hne : ¬ (r.val = r'.val) := fun e => h (Fin.ext e.symm)
    simp [h, hne]

end Sys2Proof.Machine
end

