-- ==== Sys2Proof/Laws/Ops.lean ====
section
/-! SUPPORT. One lemma per shared operation, saying everything it can do. -/

namespace Sys2Proof.Machine

theorem State.inBounds_iff (s : State) (a : Int) : s.inBounds a = true ↔ 0 ≤ a ∧ a < s.lwc := by
  simp [State.inBounds]

theorem State.jumpInBounds_iff (s : State) (t : Int) :
    s.jumpInBounds t = true ↔ 0 ≤ t ∧ t ≤ s.lwc := by
  simp [State.jumpInBounds]

theorem State.memRead_eq_some_iff (s : State) (a : Int) (w : Word) :
    s.memRead a = some w ↔ 0 ≤ a ∧ a < s.lwc ∧ w = s.mem.get a.toNat := by
  unfold State.memRead
  by_cases h : s.inBounds a = true
  · have h' := (s.inBounds_iff a).1 h
    simp [h, h', eq_comm]
  · have h' := mt (s.inBounds_iff a).2 h
    rw [if_neg h]
    constructor
    · intro h0
      cases h0
    · intro h0
      exact absurd ⟨h0.1, h0.2.1⟩ h'

theorem State.memRead_eq_none_iff (s : State) (a : Int) :
    s.memRead a = none ↔ a < 0 ∨ (s.lwc : Int) ≤ a := by
  unfold State.memRead
  by_cases h : s.inBounds a = true
  · have h' := (s.inBounds_iff a).1 h
    simp only [h, if_true, reduceCtorEq, false_iff]
    omega
  · have h' := mt (s.inBounds_iff a).2 h
    rw [if_neg h]
    simp only [true_iff]
    omega

/-- A write is defined below `lwc` and changes the contents alone. -/
theorem State.memWrite_eq_some_iff (s t : State) (a : Int) (v : Word) :
    s.memWrite a v = some t ↔ 0 ≤ a ∧ a < s.lwc ∧ t = { s with mem := s.mem.put a.toNat v } := by
  unfold State.memWrite
  by_cases h : s.inBounds a = true
  · have h' := (s.inBounds_iff a).1 h
    simp [h, h', eq_comm]
  · have h' := mt (s.inBounds_iff a).2 h
    rw [if_neg h]
    constructor
    · intro h0
      cases h0
    · intro h0
      exact absurd ⟨h0.1, h0.2.1⟩ h'

theorem State.memWrite_eq_none_iff (s : State) (a : Int) (v : Word) :
    s.memWrite a v = none ↔ a < 0 ∨ (s.lwc : Int) ≤ a := by
  unfold State.memWrite
  by_cases h : s.inBounds a = true
  · have h' := (s.inBounds_iff a).1 h
    simp only [h, if_true, reduceCtorEq, false_iff]
    omega
  · have h' := mt (s.inBounds_iff a).2 h
    rw [if_neg h]
    simp only [true_iff]
    omega

/-- Reads depend on the contents and `lwc` alone. -/
theorem State.memRead_congr {s t : State} (hm : t.mem = s.mem) (hl : t.lwc = s.lwc) (a : Int) :
    t.memRead a = s.memRead a := by
  simp [State.memRead, State.inBounds, hm, hl]

/-- What an address reads as after a write at an address that exists. -/
theorem State.memRead_put (s : State) {a : Int} (h0 : 0 ≤ a) (h1 : a < s.lwc) (v : Word) (b : Int) :
    State.memRead { s with mem := s.mem.put a.toNat v } b = if b = a then some v else s.memRead b := by
  by_cases hb : b = a
  · subst hb
    simp [State.memRead, State.inBounds, h0, h1, Memory.get_put]
  · by_cases hin : s.inBounds b = true
    · have h := (s.inBounds_iff b).1 hin
      have hne : b.toNat ≠ a.toNat := by omega
      simp [State.memRead, State.inBounds, h, hb, Memory.get_put, hne]
    · have hout : State.inBounds { s with mem := s.mem.put a.toNat v } b = false := by
        simpa [State.inBounds] using hin
      simp [State.memRead, hout, hin, hb]

/-- A fetch succeeds exactly below `lwc`. -/
theorem State.fetch_eq_some_iff (s : State) (w : Word) :
    s.fetch = some w ↔ s.pc < s.lwc ∧ w = s.mem.get s.pc := by
  simp [State.fetch, State.memRead_eq_some_iff]

theorem State.fetch_eq_none_iff (s : State) : s.fetch = none ↔ s.lwc ≤ s.pc := by
  unfold State.fetch
  rw [State.memRead_eq_none_iff]
  omega

/-- A completed instruction answers a next state that differs from its own in the count alone. -/
theorem State.complete_eq_next_iff (s t : State) :
    s.complete = .next t ↔ t = { s with count := s.count + 1 } := by
  unfold State.complete
  constructor
  · intro h
    cases h
    rfl
  · rintro rfl
    rfl

theorem State.raise_eq (s : State) (f : RuntimeFault) (v : Int) :
    s.raise f v = .next (s.faultedBy f v) := rfl

end Sys2Proof.Machine
end

