-- ==== Sys2Proof/Laws/Exec.lean ====
section
/-! SUPPORT. What each meaning answers, by the conditions of its rule: the next state written as one
update of the state the step began in, or the fault. -/

namespace Sys2Proof.Machine

theorem execAdd_eq (a b d : Reg) (s : State) : execAdd a b d s =
    .next { s.writeReg d (aluAdd (s.readReg a) (s.readReg b)) with
      pc := s.pc + 1, count := s.count + 1 } := rfl

theorem execNor_eq (a b d : Reg) (s : State) : execNor a b d s =
    .next { s.writeReg d (aluNor (s.readReg a) (s.readReg b)) with
      pc := s.pc + 1, count := s.count + 1 } := rfl

theorem execHalt_eq (s : State) :
    execHalt s = .next { s with pc := s.pc + 1, run := .halted, count := s.count + 1 } := rfl

theorem execNoop_eq (s : State) :
    execNoop s = .next { s with pc := s.pc + 1, count := s.count + 1 } := rfl

/-- lw completes exactly where its effective address reads. -/
theorem execLw_eq (a b : Reg) (off : Int) (s : State) : execLw a b off s =
    match s.memRead (s.effectiveAddress a off) with
    | none => .next (s.faultedBy .memAddrOutOfRange (s.effectiveAddress a off))
    | some w => .next { s.writeReg b w with pc := s.pc + 1, count := s.count + 1 } := by
  have h : s.advance.memRead (s.effectiveAddress a off) = s.memRead (s.effectiveAddress a off) := rfl
  show (match s.advance.memRead (s.effectiveAddress a off) with
    | none => s.raise .memAddrOutOfRange (s.effectiveAddress a off)
    | some w => (s.advance.writeReg b w).complete) = _
  rw [h]
  cases s.memRead (s.effectiveAddress a off) <;> rfl

theorem execLw_inRange {a : Reg} {off : Int} {s : State} {w : Word}
    (h : s.memRead (s.effectiveAddress a off) = some w) (b : Reg) : execLw a b off s =
    .next { s.writeReg b w with pc := s.pc + 1, count := s.count + 1 } := by
  rw [execLw_eq, h]

theorem execLw_outOfRange {a : Reg} {off : Int} {s : State}
    (h : s.memRead (s.effectiveAddress a off) = none) (b : Reg) : execLw a b off s =
    .next (s.faultedBy .memAddrOutOfRange (s.effectiveAddress a off)) := by
  rw [execLw_eq, h]

theorem execSw_inRange {a : Reg} {off : Int} {s : State}
    (h : s.inBounds (s.effectiveAddress a off) = true) (b : Reg) : execSw a b off s =
    .next { s with
      mem := s.mem.put (s.effectiveAddress a off).toNat (s.readReg b)
      pc := s.pc + 1
      count := s.count + 1 } := by
  have hw : s.advance.memWrite (s.advance.effectiveAddress a off) (s.advance.readReg b) =
      some { s.advance with mem := s.mem.put (s.effectiveAddress a off).toNat (s.readReg b) } :=
    if_pos h
  simp only [execSw, hw]
  rfl

theorem execSw_outOfRange {a : Reg} {off : Int} {s : State}
    (h : ¬ s.inBounds (s.effectiveAddress a off) = true) (b : Reg) : execSw a b off s =
    .next (s.faultedBy .memAddrOutOfRange (s.effectiveAddress a off)) := by
  have hw : s.advance.memWrite (s.advance.effectiveAddress a off) (s.advance.readReg b) = none :=
    if_neg h
  simp only [execSw, hw]
  rfl

/-- beq completes exactly where its target is a loaded word, taken or not. -/
theorem execBeq_inRange {s : State} {off : Int}
    (h : s.inBounds (s.advance.branchTarget off) = true) (a b : Reg) : execBeq a b off s =
    .next { s with
      pc := if s.readReg a = s.readReg b then (s.advance.branchTarget off).toNat else s.pc + 1
      count := s.count + 1 } := by
  have h' : s.advance.inBounds (s.advance.branchTarget off) = true := h
  by_cases he : s.readReg a = s.readReg b
  · have hq : s.advance.regsEqual a b = true := decide_eq_true he
    simp only [execBeq, h', hq, he, if_true]
    rfl
  · have hq : s.advance.regsEqual a b = false := decide_eq_false he
    simp only [execBeq, h', hq, he, if_true, if_false]
    rfl

theorem execBeq_outOfRange {s : State} {off : Int}
    (h : ¬ s.inBounds (s.advance.branchTarget off) = true) (a b : Reg) : execBeq a b off s =
    .next (s.faultedBy .branchTargetOutOfRange (s.advance.branchTarget off)) :=
  if_neg h

/-- jalr completes exactly where its target is at most `lwc`. The jump reads the target register after
the link write. -/
theorem execJalr_inRange {s : State} {a : Reg} (h : s.jumpInBounds (s.jumpTarget a) = true) (b : Reg) :
    execJalr a b s =
    .next { s.writeReg b s.advance.linkValue with
      pc := (if a = b then s.advance.linkValue.toInt else s.jumpTarget a).toNat
      count := s.count + 1 } := by
  have h' : s.advance.jumpInBounds (s.advance.jumpTarget a) = true := h
  have ht : (s.advance.writeReg b s.advance.linkValue).jumpTarget a =
      if a = b then s.advance.linkValue.toInt else s.jumpTarget a := by
    unfold State.jumpTarget
    rw [State.readReg_writeReg]
    by_cases hab : a = b <;> simp [hab]
  simp only [execJalr, h', if_true, ht]
  rfl

theorem execJalr_outOfRange {s : State} {a : Reg} (h : ¬ s.jumpInBounds (s.jumpTarget a) = true)
    (b : Reg) : execJalr a b s = .next (s.faultedBy .jumpTargetOutOfRange (s.jumpTarget a)) :=
  if_neg h

end Sys2Proof.Machine
end

