-- ==== Sys2Proof/Laws/PerInstr.lean ====
section
/-! SUPPORT. Statements made of every instruction, one lemma a constructor (LAWS.json). -/

namespace Sys2Proof.Laws

/-- A packed word of every format leaves bits 31-25 zero: an instruction word is below 2^25
(30_encoding.md R118). -/
def EncodeTopBits.Statement (i : Instr) : Prop :=
  encode i &&& 0xFE000000 = 0

theorem packOpcode_topBits (o : Opcode) : packOpcode o &&& 0xFE000000 = 0 := by
  cases o <;> decide

theorem packReg19_topBits (r : Reg) : packReg r <<< 19 &&& 0xFE000000 = 0 := by
  revert r
  decide

theorem packReg16_topBits (r : Reg) : packReg r <<< 16 &&& 0xFE000000 = 0 := by
  revert r
  decide

theorem packReg_topBits (r : Reg) : packReg r &&& 0xFE000000 = 0 := by
  revert r
  decide

theorem offsetField_topBits (f : BitVec 16) : f.setWidth 32 &&& (0xFE000000 : Word) = 0 := by
  apply BitVec.eq_of_getLsbD_eq
  intro k hk
  rw [BitVec.getLsbD_and, BitVec.getLsbD_setWidth,
    show BitVec.getLsbD (0 : Word) k = false from BitVec.getLsbD_zero]
  by_cases h : k < 16
  · have hmask : ∀ j : Fin 16, (0xFE000000 : Word).getLsbD j.val = false := by decide
    rw [show (0xFE000000 : Word).getLsbD k = false from hmask ⟨k, h⟩, Bool.and_false]
  · rw [BitVec.getLsbD_of_ge f k (by omega), Bool.and_false, Bool.false_and]

/-- A mask that clears both sides of an OR clears the OR. -/
theorem or_topBits {x y : Word} (hx : x &&& 0xFE000000 = 0) (hy : y &&& 0xFE000000 = 0) :
    (x ||| y) &&& 0xFE000000 = 0 := by
  rw [BitVec.and_comm, BitVec.and_or_distrib_left, BitVec.and_comm, hx, BitVec.and_comm, hy]
  rfl

theorem packJ_topBits (o : Opcode) (a b : Reg) : packJ o a b &&& 0xFE000000 = 0 :=
  or_topBits (or_topBits (packOpcode_topBits o) (packReg19_topBits a)) (packReg16_topBits b)

theorem packR_topBits (o : Opcode) (a b d : Reg) : packR o a b d &&& 0xFE000000 = 0 :=
  or_topBits (packJ_topBits o a b) (packReg_topBits d)

theorem packI_topBits (o : Opcode) (a b : Reg) (f : BitVec 16) : packI o a b f &&& 0xFE000000 = 0 :=
  or_topBits (packJ_topBits o a b) (offsetField_topBits f)

theorem EncodeTopBits.add (regA regB destReg : Reg) :
    EncodeTopBits.Statement (.add regA regB destReg) := packR_topBits _ _ _ _

theorem EncodeTopBits.nor (regA regB destReg : Reg) :
    EncodeTopBits.Statement (.nor regA regB destReg) := packR_topBits _ _ _ _

theorem EncodeTopBits.lw (regA regB : Reg) (offset : Int) :
    EncodeTopBits.Statement (.lw regA regB offset) := packI_topBits _ _ _ _

theorem EncodeTopBits.sw (regA regB : Reg) (offset : Int) :
    EncodeTopBits.Statement (.sw regA regB offset) := packI_topBits _ _ _ _

theorem EncodeTopBits.beq (regA regB : Reg) (offset : Int) :
    EncodeTopBits.Statement (.beq regA regB offset) := packI_topBits _ _ _ _

theorem EncodeTopBits.jalr (regA regB : Reg) :
    EncodeTopBits.Statement (.jalr regA regB) := packJ_topBits _ _ _

theorem EncodeTopBits.halt : EncodeTopBits.Statement .halt := packOpcode_topBits _

theorem EncodeTopBits.noop : EncodeTopBits.Statement .noop := packOpcode_topBits _

end Sys2Proof.Laws
end

