-- ==== Sys2Proof/Laws/Ranges.lean ====
section
/-! SUPPORT. The range checks as inequalities. -/

namespace Sys2Proof

theorem offsetInRange_iff (v : Int) : offsetInRange v = true ↔ -32768 ≤ v ∧ v ≤ 32767 := by
  unfold offsetInRange
  rw [Bool.and_eq_true]
  exact and_congr decide_eq_true_iff decide_eq_true_iff

theorem Machine.wordInRange_iff (v : Int) :
    Machine.wordInRange v = true ↔ -(2 : Int) ^ 31 ≤ v ∧ v ≤ 2 ^ 31 - 1 := by
  unfold Machine.wordInRange
  rw [Bool.and_eq_true]
  exact and_congr decide_eq_true_iff decide_eq_true_iff

end Sys2Proof
end

