-- ==== Sys2Proof/Laws/Step.lean ====
section
/-! SUPPORT. What one step can do: the inversion lemma that step-level results cite. -/

namespace Sys2Proof.Machine

theorem step_of_fetch {s : State} {w : Word} (hr : s.run = .running) (hf : s.fetch = some w) :
    step s = exec (decode w) s := by
  simp only [step, hr, hf]

theorem step_of_fetch_none {s : State} (hr : s.run = .running) (hf : s.fetch = none) :
    step s = .next (s.faultedBy .fetchOutOfRange s.pc) := by
  simp only [step, hr, hf]
  rfl

/-- A step that answers a next state began in a running state, and either its fetch faulted or it
executed the instruction at `pc`. -/
theorem step_cases {s t : State} (h : step s = .next t) : s.run = .running ∧
    ((s.fetch = none ∧ t = s.faultedBy .fetchOutOfRange s.pc) ∨
      ∃ w, s.fetch = some w ∧ exec (decode w) s = .next t) := by
  cases hr : s.run with
  | halted => simp [step, hr] at h
  | faulted r => simp [step, hr] at h
  | running =>
    refine ⟨rfl, ?_⟩
    cases hf : s.fetch with
    | none =>
      rw [step_of_fetch_none hr hf] at h
      cases h
      exact .inl ⟨rfl, rfl⟩
    | some w => exact .inr ⟨w, rfl, step_of_fetch hr hf ▸ h⟩

/-- What executing an instruction can do: it faults and leaves everything but the run state, or it
completes, counts once, and changes at most its destination register, its stored word, `pc` and (halt)
the run state. -/
theorem exec_cases (i : Instr) (s : State) :
    (∃ f v, exec i s = .next (s.faultedBy f v) ∧ ¬ keepsInRange i s) ∨
    (keepsInRange i s ∧ ∃ regs pc mem,
      exec i s = .next
        { regs := regs, pc := pc, mem := mem, lwc := s.lwc,
          run := if i = .halt then .halted else s.run, count := s.count + 1 } ∧
      (∀ r : Reg, destOf? i ≠ some r → regs[r] = s.regs[r]) ∧
      (mem = s.mem ∨ ∃ a v, storeAddressOf? s i = some a ∧ 0 ≤ a ∧ a < s.lwc ∧
        mem = s.mem.put a.toNat v)) := by
  have hset : ∀ (d r : Reg) (v : Word), some d ≠ some r → (s.regs.set d v)[r] = s.regs[r] := by
    intro d r v hne
    have hdr : ¬ r = d := fun e => hne (by rw [e])
    simpa [State.readReg, State.writeReg, hdr] using State.readReg_writeReg s d r v
  cases i with
  | add a b d => exact .inr ⟨trivial, _, _, _, rfl, fun r h => hset d r _ h, .inl rfl⟩
  | nor a b d => exact .inr ⟨trivial, _, _, _, rfl, fun r h => hset d r _ h, .inl rfl⟩
  | lw a b off =>
    cases h : s.memRead (s.effectiveAddress a off) with
    | none =>
      have h' := (State.memRead_eq_none_iff _ _).1 h
      refine .inl ⟨_, _, execLw_outOfRange h b, fun hk => ?_⟩
      simp only [keepsInRange, State.effectiveAddress] at hk h'
      omega
    | some w =>
      have h' := (State.memRead_eq_some_iff _ _ _).1 h
      exact .inr ⟨⟨h'.1, h'.2.1⟩, _, _, _, execLw_inRange h b, fun r h => hset b r _ h, .inl rfl⟩
  | sw a b off =>
    by_cases h : s.inBounds (s.effectiveAddress a off) = true
    · have h' := (State.inBounds_iff _ _).1 h
      exact .inr ⟨h', _, _, _, execSw_inRange h b, fun _ _ => rfl,
        .inr ⟨_, _, rfl, h'.1, h'.2, rfl⟩⟩
    · exact .inl ⟨_, _, execSw_outOfRange h b, fun hk => h ((State.inBounds_iff _ _).2 hk)⟩
  | beq a b off =>
    by_cases h : s.inBounds (s.advance.branchTarget off) = true
    · exact .inr ⟨(State.inBounds_iff _ _).1 h, _, _, _, execBeq_inRange h a b, fun _ _ => rfl, .inl rfl⟩
    · exact .inl ⟨_, _, execBeq_outOfRange h a b, fun hk => h ((State.inBounds_iff _ _).2 hk)⟩
  | jalr a b =>
    by_cases h : s.jumpInBounds (s.jumpTarget a) = true
    · exact .inr ⟨(State.jumpInBounds_iff _ _).1 h, _, _, _, execJalr_inRange h b,
        fun r h => hset b r _ h, .inl rfl⟩
    · exact .inl ⟨_, _, execJalr_outOfRange h b, fun hk => h ((State.jumpInBounds_iff _ _).2 hk)⟩
  | halt => exact .inr ⟨trivial, _, _, _, rfl, fun _ _ => rfl, .inl rfl⟩
  | noop => exact .inr ⟨trivial, _, _, _, rfl, fun _ _ => rfl, .inl rfl⟩

end Sys2Proof.Machine
end

