-- ==== Sys2Proof/Laws/Run.lean ====
section
/-! SUPPORT. What a snapshot reads, and unfolding one step of a run. -/

namespace Sys2Proof.Machine

/-- A run of `k + 1` steps is one step and then `k`, for any machine of the host's interface. -/
theorem run_succ (M : Host.Core) (k : Nat) (s t : M.State) (h : M.step s = .next t) :
    M.run (k + 1) s = M.run k t := by
  simp only [Host.Core.run, h]

theorem next?_of_step {s t : State} (h : step s = .next t) : s.next? = some t := by
  simp only [State.next?, h]

/-- A running state always has a next state. -/
theorem step_of_running {s : State} (h : s.run = .running) : ∃ t, step s = .next t := by
  cases hf : s.fetch with
  | none => exact ⟨_, step_of_fetch_none h hf⟩
  | some w =>
    rw [step_of_fetch h hf]
    obtain ⟨f, v, h, -⟩ | ⟨-, _, _, _, h, -⟩ := exec_cases (decode w) s
    · exact ⟨_, h⟩
    · exact ⟨_, h⟩

/-! ## Snapshots -/

@[simp] theorem State.snapshot_pc (s : State) : s.snapshot.pc = s.pc := rfl
@[simp] theorem State.snapshot_regs (s : State) : s.snapshot.regs = s.regs := rfl
@[simp] theorem State.snapshot_mem (s : State) : s.snapshot.mem = s.words := rfl

@[simp] theorem State.length_words (s : State) : s.words.length = s.lwc := by
  simp [State.words]

theorem State.getElem_words (s : State) {i : Nat} (h : i < s.words.length) :
    s.words[i] = s.mem.get i := by
  simp [State.words]

/-! ## A run, one step at a time -/

/-- A run goes on exactly from a running state below the cycle limit. -/
theorem runEnd?_eq_none_iff {cfg : Config} {s : State} :
    runEnd? cfg s = none ↔ s.run = .running ∧ ∀ n, cfg.maxCycles = some n → s.count < n := by
  cases hr : s.run with
  | halted => simp [runEnd?, hr]
  | faulted record => simp [runEnd?, hr]
  | running =>
    cases hc : cfg.maxCycles with
    | none => simp [runEnd?, hr, hc]
    | some n => simp [runEnd?, hr, hc]

theorem runTrace_of_end {cfg : Config} {s : State} {e : RunEnd} (h : runEnd? cfg s = some e)
    (fuel : Nat) : runTrace cfg fuel s = ([], e) := by
  cases fuel <;> simp only [runTrace, h]

theorem runTrace_of_step {cfg : Config} {s t : State} (h : runEnd? cfg s = none)
    (ht : step s = .next t) (fuel : Nat) : runTrace cfg (fuel + 1) s =
      (s.snapshot :: (runTrace cfg fuel t).1, (runTrace cfg fuel t).2) := by
  simp only [runTrace, h, next?_of_step ht]

end Sys2Proof.Machine
end

