-- ==== Sys2Proof/Tests/Slice0.lean ====
section
/-! SUPPORT. Tests: the WellFormed smoke, words written out from the spec's encodings, one-step vectors
of spec/95_test_vectors.md (named by their ids there), and a witness for every hypothesis of the
statements in Certificates/Slice0/Obligations.lean. -/

namespace Sys2Proof.Tests

open Sys2Proof Sys2Proof.Machine

/-- A running state: the reset for an image, with `pc` and registers 1, 2 and 3 set. -/
def st (img : List Word) (pc : Nat) (x1 x2 x3 : Word) : State :=
  { State.ofImage img with pc := pc, regs := #v[0, x1, x2, x3, 0, 0, 0, 0] }

/-- A record of an opcode text and up to three operand texts, with no label. -/
def rec3 (opcode op0 op1 op2 : String) : Record :=
  ⟨none, some opcode.toList, some op0.toList, some op1.toList, some op2.toList⟩

/-- A record of a label and an opcode text. -/
def labelled (label opcode : String) : Record :=
  ⟨some label.toList, some opcode.toList, none, none, none⟩

/-! ## WellFormed smoke: the offset check refuses a term on either side of its range -/

theorem test_wf_refuses_offset_above :
    (Instr.lw 0 1 32768).wf = false ∧ (Instr.sw 0 1 32768).wf = false ∧
      (Instr.beq 0 1 32768).wf = false := by decide

theorem test_wf_refuses_offset_below :
    (Instr.lw 0 1 (-32769)).wf = false ∧ (Instr.sw 0 1 (-32769)).wf = false ∧
      (Instr.beq 0 1 (-32769)).wf = false := by decide

/-! ## Decoding: words written out bit by bit (30_encoding.md R83 to R86: unused, opcode, regA, regB,
low part) -/

theorem test_decode_add : decode 0b0000000_000_001_010_0000000000000_011#32 = .add 1 2 3 := by decide
theorem test_decode_nor : decode 0b0000000_001_111_000_0000000000000_101#32 = .nor 7 0 5 := by decide
theorem test_decode_lw : decode 0b0000000_010_000_001_1111111111111111#32 = .lw 0 1 (-1) := by decide
theorem test_decode_sw : decode 0b0000000_011_111_000_0000000000000101#32 = .sw 7 0 5 := by decide
theorem test_decode_beq : decode 0b0000000_100_001_010_1000000000000000#32 = .beq 1 2 (-32768) := by decide
theorem test_decode_jalr : decode 0b0000000_101_100_111_0000000000000000#32 = .jalr 4 7 := by decide
theorem test_decode_halt : decode 0b0000000_110_000_000_0000000000000000#32 = .halt := by decide
theorem test_decode_noop : decode 0b0000000_111_000_000_0000000000000000#32 = .noop := by decide

/-- DEC05, DEC06, DEC08, DEC02: ignored bits do not matter. -/
theorem test_decode_ignores_unused_bits :
    decode 0x000A0023 = .add 1 2 3 ∧ decode 0xFE8A0003 = .lw 1 2 3 ∧ decode 0x01671234 = .jalr 4 7 ∧
      decode 0xFFFFFFFF = .noop := by decide

/-- E01, E02, E20, E25, E27, E50, E53, E55: the encoder's words. -/
theorem test_encode_words :
    [Instr.add 1 2 3, .nor 1 2 3, .lw 0 1 (-1), .sw 7 0 5, .beq 0 0 (-1), .jalr 4 7, .halt, .noop].map
        (fun i => (encode i).toNat) =
      [655363, 4849667, 8519679, 16252933, 16842751, 23527424, 25165824, 29360128] := by decide

theorem test_decodeTableWord :
    decodeTableWord 32 23527424 = some (.jalr 4 7) ∧ decodeTableWord 64 0 = none := by decide

theorem test_withFetchWord_runs_noop :
    (State.reset.withFetchWord 32 29360128).next?.map (fun t => (t.pc, t.count, t.run)) =
      some (1, 1, .running) := by decide

/-! ## One step of each instruction -/

/-- A02: the sum wraps. -/
theorem test_add_wraps :
    (st [655363] 0 2147483647 1 0).next?.map (fun t => (t.readReg 3, t.pc, t.count)) =
      some (0x80000000, 1, 1) := by decide

/-- A05: register 0 is writable. -/
theorem test_add_writes_register_0 :
    (st [589824] 0 5 0 0).next?.map (fun t => t.readReg 0) = some 10 := by decide

/-- N01. -/
theorem test_nor : (st [4849667] 0 5 3 0).next?.map (fun t => (t.readReg 3).toInt) = some (-8) := by
  decide

/-- N04. -/
theorem test_nor_bits :
    (st [4849667] 0 0x0F0F0F0F 0x00FF00FF 0).next?.map (fun t => t.readReg 3) = some 0xF000F000 := by
  decide

/-- M06: a negative offset is sign-extended. -/
theorem test_lw_negative_offset :
    (st [9076736, 11, 22, 33] 0 32770 0 0).next?.map (fun t => (t.readReg 2, t.pc, t.count)) =
      some (22, 1, 1) := by decide

/-- M02: `ea = lwc` faults and leaves the state as it was. -/
theorem test_lw_faults_at_lwc :
    (st [8454148, 11, 22, 33] 0 0 0 0).next? =
      some ((st [8454148, 11, 22, 33] 0 0 0 0).faultedBy .memAddrOutOfRange 4) := by decide

/-- S03: a store over the instruction itself. -/
theorem test_sw_overwrites_itself :
    (st [12648448, 11, 22, 33] 0 (-5) 0 0).next?.map (fun t => (t.memRead 0, t.memRead 3, t.pc)) =
      some (some (-5), some 33, 1) := by decide

/-- S04. -/
theorem test_sw_same_register :
    (st [13172736, 11, 22, 33] 0 2 0 0).next?.map (fun t => (t.memRead 2, t.readReg 1)) =
      some (some 2, 2) := by decide

/-- B01 and B02. -/
theorem test_beq_taken_and_not :
    (st [17432578, 0, 0, 0] 0 4 4 0).next?.map (fun t => t.pc) = some 3 ∧
      (st [17432578, 0, 0, 0] 0 4 5 0).next?.map (fun t => t.pc) = some 1 := by decide

/-- B03: the target is checked though the branch is not taken. -/
theorem test_beq_faults_untaken :
    (st [17432579, 0, 0, 0] 0 4 5 0).next? =
      some ((st [17432579, 0, 0, 0] 0 4 5 0).faultedBy .branchTargetOutOfRange 4) := by decide

/-- J02: a jump to `lwc` completes. -/
theorem test_jalr_to_lwc :
    (st [21626880, 0, 0, 0] 0 4 0 0).next?.map (fun t => (t.readReg 2, t.pc, t.run)) =
      some (1, 4, .running) := by decide

/-- J06: with equal registers the link is written first and then read. -/
theorem test_jalr_same_register :
    (st [0, 21561344, 0, 0] 1 3 0 0).next?.map (fun t => (t.readReg 1, t.pc)) = some (2, 2) := by decide

/-- H01. -/
theorem test_halt :
    (st [25165824] 0 0 0 0).next?.map (fun t => (t.run, t.pc, t.count)) = some (.halted, 1, 1) := by decide

/-- DEC04 run as a step: only `pc` and the count change. -/
theorem test_noop :
    (st [29434693] 0 1 2 3).next? = some { st [29434693] 0 1 2 3 with pc := 1, count := 1 } := by decide

/-- F02: the empty image. -/
theorem test_fetch_faults_on_empty_image :
    State.reset.next? = some (State.reset.faultedBy .fetchOutOfRange 0) := by decide

/-! ## The encoder block -/

/-- E31. -/
theorem test_assemble_backward_branch :
    assemble [labelled "loop" "noop", rec3 "beq" "0" "0" "loop"] = .ok [29360128, 16842750] := by rfl

/-- E34 and E60's `.fill`: an absolute label and a data word. -/
theorem test_assemble_absolute_label :
    assemble [rec3 "lw" "0" "1" "data", rec3 "halt" "9" "x" "y",
      ⟨some "data".toList, some ".fill".toList, some "-1".toList, none, none⟩] =
        .ok [8454146, 25165824, 0xFFFFFFFF] := by rfl

/-- E03: signs and leading zeros. -/
theorem test_signed_register_text : encRecord (rec3 "add" "+3" "03" "7") [] 0 = .ok 1769479 := by rfl

/-- E08, E22, E39, E63, E71, E09: the errors. -/
theorem test_assembly_errors :
    encRecord (rec3 "add" "9" "1" "2x") [] 0 = .error (.badRegister 0 "9".toList) ∧
    encRecord (rec3 "lw" "0" "1" "32768") [] 0 = .error (.offsetOutOfRange 0 "32768".toList) ∧
    encRecord (rec3 "lw" "0" "1" "nowhere") [] 0 = .error (.undefinedLabel 0 "nowhere".toList) ∧
    encRecord (rec3 ".fill" "2147483648" "" "") [] 0 = .error (.fillOutOfRange 0 "2147483648".toList) ∧
    encRecord (rec3 "ADD" "1" "2" "3") [] 0 = .error (.unrecognizedOpcode 0 (some "ADD".toList)) ∧
    encRecord ⟨none, some "add".toList, some "1".toList, some "2".toList, none⟩ [] 0 =
      .error (.missingOperand 0) := ⟨rfl, rfl, rfl, rfl, rfl, rfl⟩

/-- E36 with the addresses of the vector, E33: the relative range, and E37: the absolute range. -/
theorem test_label_ranges :
    encRecord (rec3 "beq" "0" "0" "top") [("top".toList, 0)] 32768 =
      .error (.offsetOutOfRange 32768 "top".toList) ∧
    encRecord (rec3 "beq" "0" "0" "top") [("top".toList, 0)] 32767 = .ok 16809984 ∧
    encRecord (rec3 "beq" "0" "0" "far") [("far".toList, 32768)] 32767 =
      .error (.offsetOutOfRange 32767 "far".toList) := ⟨rfl, rfl, rfl⟩

/-- E74 and E75. -/
theorem test_duplicate_labels :
    assemble [labelled "a" "noop", labelled "a" "halt"] = .error (.duplicateLabel 1 "a".toList) ∧
    assemble [labelled "a" "noop", labelled "A" "halt", rec3 "beq" "0" "0" "A"] =
      .ok [29360128, 25165824, 16842750] := ⟨rfl, rfl⟩

/-! ## The loader, printing and runs -/

/-- L01, L02, L03, L05, and H02's image loaded from text. -/
theorem test_load :
    load ["5".toList, "-1".toList, "+3".toList] = .ok (State.ofImage [5, 0xFFFFFFFF, 3]) ∧
    load [" 5".toList] = .error (.badWordLine 0 " 5".toList) ∧
    load ["2147483648".toList] = .error (.wordOutOfRange 0 "2147483648".toList) ∧
    load ["0x10".toList] = .error (.badWordLine 0 "0x10".toList) := ⟨rfl, rfl, rfl, rfl⟩

theorem test_print :
    printWord 0x80000000 = "-2147483648".toList ∧ printWord 0 = "0".toList ∧
      printWord 29360128 = "29360128".toList := by decide

/-- CAP02 and CAP03. -/
theorem test_cycle_limit :
    (runTrace { maxCycles := some 2, maxLineLength := 0 } 2 (st [29360128, 25165824] 0 0 0 0)).2 =
      .halted { pc := 2, regs := Vector.replicate 8 0, mem := [29360128, 25165824] } 2 ∧
    (runTrace { maxCycles := some 1, maxLineLength := 0 } 2 (st [29360128, 25165824] 0 0 0 0)).2 =
      .nonTerminating { st [29360128, 25165824] 0 0 0 0 with pc := 1, count := 1 } := by decide

/-- The Line Reader's bound: a line of the bound's length, one past it, and one with no newline. -/
theorem test_line_length :
    checkSourceLine { maxLineLength := 4 } ['h', 'a', 'l', 't', '\n'] = .ok ['h', 'a', 'l', 't'] ∧
    checkSourceLine { maxLineLength := 3 } ['h', 'a', 'l', 't', '\n'] =
      .error (.lineTooLong ['h', 'a', 'l', 't', '\n']) ∧
    checkSourceLine { maxLineLength := 9 } ['h'] = .error (.lineTooLong ['h']) := ⟨rfl, rfl, rfl⟩

/-! ## Witnesses: states and operands that meet the statements' hypotheses -/

theorem witness_wf_at_both_ends :
    (Instr.lw 0 1 (-32768)).wf = true ∧ (Instr.beq 7 7 32767).wf = true ∧ Instr.halt.wf = true := by decide

/-- AssembledRecordDecodesToItsOperands, PackingFollowsEachFormat, OnlyReadOperandsMatter: a record of
every format that assembles. -/
theorem witness_records_of_every_format :
    (SourceOp.ofText? (rec3 "nor" "7" "0" "5").opcode = some (.instr .nor) ∧
      encRecord (rec3 "nor" "7" "0" "5") [] 0 = .ok 0x00780005) ∧
    (SourceOp.ofText? (rec3 "sw" "2" "3" "data").opcode = some (.instr .sw) ∧
      encRecord (rec3 "sw" "2" "3" "data") [("data".toList, 2)] 0 = .ok 13828098) ∧
    (SourceOp.ofText? (rec3 "jalr" "4" "7" "junk").opcode = some (.instr .jalr) ∧
      encRecord (rec3 "jalr" "4" "7" "junk") [] 0 = .ok 23527424) ∧
    (SourceOp.ofText? (rec3 "halt" "9" "x" "y").opcode = some (.instr .halt) ∧
      encRecord (rec3 "halt" "9" "x" "y") [] 0 = .ok 25165824) :=
  ⟨⟨rfl, rfl⟩, ⟨rfl, rfl⟩, ⟨rfl, rfl⟩, ⟨rfl, rfl⟩⟩

/-- The format hypotheses of PackingFollowsEachFormat and OnlyReadOperandsMatter, each met. -/
theorem witness_formats :
    Opcode.add.format = .rType ∧ Opcode.lw.format = .iType ∧ Opcode.jalr.format = .jType ∧
      Opcode.halt.format = .oType ∧
      offsetOperand (some "-32768".toList) .lw [] 0 = .ok 0x8000#16 := ⟨rfl, rfl, rfl, rfl, rfl⟩

/-- Operand texts for both ends of the register range. -/
theorem witness_names :
    NamesReg (some "0".toList) 0 ∧ NamesReg (some "+7".toList) 7 ∧ NamesInt (some "-1".toList) (-1) ∧
      NamesLabel [("data".toList, 2)] (some "data".toList) 2 :=
  ⟨⟨_, rfl, rfl⟩, ⟨_, rfl, rfl⟩, ⟨_, rfl, rfl⟩, ⟨_, rfl, rfl, rfl⟩⟩

/-- OffsetFieldIsSignExtended. -/
theorem witness_offset_fields :
    (0x8000#16).getLsbD 15 = true ∧ (0x7FFF#16).getLsbD 15 = false ∧ decode 8454147 = .lw 0 1 3 ∧
      decode 12648451 = .sw 0 1 3 ∧ decode 16842751 = .beq 0 0 (-1) := by decide

/-- The worked examples of AddWritesTheWrappedSum and NorWritesTheBitwiseNor. -/
theorem witness_alu_examples :
    (st [655363] 0 5 (-3) 0).readReg 1 = 5 ∧ (st [655363] 0 5 (-3) 0).readReg 2 = -3 ∧
      (st [4849667] 0 5 3 0).readReg 2 = 3 := by decide

/-- LwLoadsOrFaults and SwStoresOrFaults: both ends of the range, and the address past each end. -/
theorem witness_effective_addresses :
    let s := st [0, 11, 22, 33] 0 2 0 0
    (0 ≤ (s.readReg 1).toInt + -2 ∧ (s.readReg 1).toInt + -2 < s.lwc) ∧
    (0 ≤ (s.readReg 1).toInt + 1 ∧ (s.readReg 1).toInt + 1 < s.lwc) ∧
    (s.readReg 1).toInt + -3 < 0 ∧ (s.lwc : Int) ≤ (s.readReg 1).toInt + 2 := by decide

/-- EffectiveAddressWrapIsUnobservable, in range and where the 32-bit sum wraps. -/
theorem witness_wrapping_address :
    let s := st [0, 11, 22, 33] 0 0x7FFFFFFF 3 0
    s.lwc ≤ 65536 ∧ s.inBounds (s.effectiveAddress 2 0) = true ∧
      (wrap32 ((s.readReg 1).toInt + 32767)).toInt < 0 ∧ (32767 : Int) ≤ 32767 ∧ (-32768 : Int) ≤ 0 := by
  decide

/-- BeqBranchesOrFaults: both ends of the target range and the target past each end, with equal and
unequal registers. -/
theorem witness_branch_targets :
    let s := st [0, 0, 0, 0] 0 4 4 5
    (0 ≤ ((s.pc : Int) + 1) + -1 ∧ ((s.pc : Int) + 1) + -1 < s.lwc) ∧
    (0 ≤ ((s.pc : Int) + 1) + 2 ∧ ((s.pc : Int) + 1) + 2 < s.lwc) ∧
    ((s.pc : Int) + 1) + -2 < 0 ∧ (s.lwc : Int) ≤ ((s.pc : Int) + 1) + 3 ∧
    s.readReg 1 = s.readReg 2 ∧ s.readReg 1 ≠ s.readReg 3 := by decide

/-- JalrLinksAndJumpsOrFaults: the targets 0 and `lwc`, and past each end. -/
theorem witness_jump_targets :
    (let s := st [0, 0, 0, 0] 0 4 (-1) 5
     (0 ≤ (s.readReg 0).toInt ∧ (s.readReg 0).toInt ≤ s.lwc) ∧
     (0 ≤ (s.readReg 1).toInt ∧ (s.readReg 1).toInt ≤ s.lwc) ∧
     (s.readReg 2).toInt < 0 ∧ (s.lwc : Int) < (s.readReg 3).toInt) := by decide

/-- States that meet the invariant, at the least and the greatest `pc`; the jump with equal registers
is in range in the second. -/
theorem witness_inv :
    State.reset.Inv ∧ (st [7, 0, 5] 3 3 0 0).Inv ∧ (st [7, 0, 5] 3 3 0 0).jumpInBounds 3 = true := by
  refine ⟨⟨by decide, by decide, by decide, fun c hc => ?_⟩, ⟨by decide, by decide, by decide, ?_⟩, by decide⟩
  · simp [State.reset] at hc
  · decide

/-- HaltStopsTheMachine, StepRunsTheDecodedInstruction, CompletedStepWritesOnlyItsEffects: a running
state at a halt, with `pc` and the count of the rule's example. -/
theorem witness_halt_example :
    let s := { st [1, 25165824] 1 0 0 0 with count := 1 }
    s.run = .running ∧ s.pc = 1 ∧ s.count = 1 ∧ s.fetch = some 25165824 ∧
      s.memRead s.pc = some 25165824 ∧ decode 25165824 = .halt := by decide

/-- NoopOnlyAdvances, FetchPastTheLoadedWordsFaults: the last word, and past it. -/
theorem witness_last_word :
    (st [29360128] 0 0 0 0).run = .running ∧ (st [29360128] 0 0 0 0).pc + 1 = (st [29360128] 0 0 0 0).lwc ∧
      (st [29360128] 1 0 0 0).lwc ≤ (st [29360128] 1 0 0 0).pc := by decide

/-- ExactlyRunningStatesStep: a state of each run state. -/
theorem witness_run_states :
    (st [] 0 0 0 0).run = .running ∧ (st [] 0 0 0 0).enterHalted.run = .halted ∧
      ((st [] 0 0 0 0).faultedBy .fetchOutOfRange 0).run = .faulted ⟨.fetchOutOfRange, 0, 0⟩ := by decide

/-- StepFaultsExactlyByTheTable and RunStateTransitions: a fault of every kind that a step raises. -/
theorem witness_every_fault_is_raised :
    (st [] 0 0 0 0).next? = some ((st [] 0 0 0 0).faultedBy .fetchOutOfRange 0) ∧
    (st [8454145] 0 0 0 0).next? = some ((st [8454145] 0 0 0 0).faultedBy .memAddrOutOfRange 1) ∧
    (st [16777216] 0 0 0 0).next? = some ((st [16777216] 0 0 0 0).faultedBy .branchTargetOutOfRange 1) ∧
    (st [21626880] 0 5 0 0).next? = some ((st [21626880] 0 5 0 0).faultedBy .jumpTargetOutOfRange 5) := by
  decide

/-- RunStateTransitions, CompletedStepWritesOnlyItsEffects, StepIsUnfaultedExactlyInRange,
NoInstructionReadsTheCount, EveryStepKeepsInv: an unfaulted step. -/
theorem witness_completed_step :
    (st [29360128] 0 0 0 0).run = .running ∧ (st [29360128] 0 0 0 0).fetch = some 29360128 ∧
      (st [29360128] 0 0 0 0).next? = some { st [29360128] 0 0 0 0 with pc := 1, count := 1 } ∧
      ({ st [29360128] 0 0 0 0 with pc := 1, count := 1 } : State).Unfaulted ∧
      (st [29360128] 0 0 0 0).StepSafe := by
  refine ⟨by decide, by decide, by decide, ?_, 29360128, by decide, ?_⟩
  · intro record h
    exact absurd h (by simp [st, State.ofImage])
  · have h : decode 29360128 = .noop := by decide
    rw [h]
    trivial

/-- JalrToLwcFaultsAtTheNextFetch. -/
theorem witness_jalr_to_lwc :
    let s := st [21626880, 0, 0, 0] 0 4 0 0
    s.run = .running ∧ s.fetch = some 21626880 ∧ decode 21626880 = .jalr 1 2 ∧ (1 : Reg) ≠ 2 ∧
      (s.readReg 1).toInt = s.lwc := by decide

/-- StoreIsSeenByTheNextFetch. -/
theorem witness_store_over_next :
    let s := st [12648449, 0, 0] 0 7 0 0
    s.run = .running ∧ s.fetch = some 12648449 ∧ decode 12648449 = .sw 0 1 1 ∧
      (s.readReg 0).toInt + 1 = (s.pc : Int) + 1 ∧ s.pc + 1 < s.lwc := by decide

/-- BeqToItselfLoopsForever. -/
theorem witness_self_branch :
    let s := st [16842751] 0 0 0 0
    s.run = .running ∧ s.fetch = some 16842751 ∧ decode 16842751 = .beq 0 0 (-1) := by decide

/-- MemoryReadsTheLastWrite: a write at the last address. -/
theorem witness_mem_write :
    (st [7, 8] 0 0 0 0).memWrite 1 9 = some (st [7, 9] 0 0 0 0) ∧
      (st [7, 8] 0 0 0 0).memWrite 2 9 = none := by decide

/-- CanonicalMemoriesAreDeterminedByTheirReads. -/
theorem witness_canonical_memory :
    Memory.wf [(0, 7), (3, 1)] ∧ Memory.wf (Memory.put [(0, 7), (3, 1)] 3 0) ∧
      ∀ a : Nat, Memory.get (Memory.put [(0, 7), (3, 1)] 3 0) a = Memory.get [(0, 7)] a := by
  have h : Memory.put [(0, 7), (3, 1)] 3 0 = [(0, 7)] := by decide
  rw [h]
  exact ⟨by decide, by decide, fun _ => rfl⟩

/-- ResetStateOfAnImage and EveryLoadedImageMeetsInv: the two ends of the address range. -/
theorem witness_image :
    (0 < [(5 : Word), 0, 6].length) ∧ (2 < [(5 : Word), 0, 6].length) ∧ ((-1 : Int) < 0) ∧
      (([(5 : Word), 0, 6].length : Int) ≤ 3) ∧ [(5 : Word), 0, 6].length ≤ 65536 := by decide

/-- LoaderAcceptsExactlyWellFormedImages and LoaderReportsTheFirstBadLine. -/
theorem witness_loader_lines :
    load ["2147483647".toList] = .ok (State.ofImage [0x7FFFFFFF]) ∧
    (["5".toList] ++ "x".toList :: []).length ≤ 65536 ∧
    (parseInt? "5".toList = some 5 ∧ wordInRange 5 = true) ∧ parseInt? "x".toList = none ∧
    (parseInt? "-2147483649".toList = some (-2147483649) ∧ (-2147483649 : Int) < -(2 : Int) ^ 31) ∧
    (parseInt? "2147483648".toList = some 2147483648 ∧ (2 : Int) ^ 31 - 1 < 2147483648) := by
  refine ⟨rfl, by decide, by decide, by decide, by decide, by decide⟩

theorem witness_too_many_lines : 65536 < (List.replicate 65537 ("0".toList)).length := by
  rw [List.length_replicate]
  decide

/-- AssembledOutputLoadsWordForRecord; the second is a source past the capacity. -/
theorem witness_assembled_output :
    assembleOutput [labelled "x" "halt"] = .ok ["25165824".toList] ∧
      65536 < (List.replicate 65537 (labelled "" "noop")).length := by
  refine ⟨rfl, ?_⟩
  rw [List.length_replicate]
  decide

/-- SymbolTableHoldsEveryLabelsAddress and the label hypotheses of
DuplicateLabelIsReportedAtItsSecondRecord. -/
theorem witness_pass1 :
    pass1 [labelled "" "noop", labelled "a" "halt"] = .ok ([("a".toList, 1)], 2) ∧
      labelAt [labelled "" "noop", labelled "a" "halt"] 1 = some "a".toList ∧
      pass1 [labelled "a" "noop", labelled "a" "halt"] = .error (.duplicateLabel 1 "a".toList) :=
  ⟨rfl, rfl, rfl⟩

/-- AssembledWordsAreTheRecordsEncodings and FirstAssemblyErrorIsTheResult: a success, and E76's error
of the first failing record. -/
theorem witness_assemble :
    assemble [labelled "x" "halt"] = .ok [25165824] ∧
      assemble [rec3 "lw" "0" "1" "nowhere", labelled "" "foo"] =
        .error (.undefinedLabel 0 "nowhere".toList) := ⟨rfl, rfl⟩

/-- RegisterOperandMustBeZeroToSeven: the values past each end, and a text that is no integer. -/
theorem witness_bad_registers :
    parseInt? "8".toList = some 8 ∧ parseInt? "-1".toList = some (-1) ∧ parseInt? "3x".toList = none := by
  decide

/-- LiteralOffsetIsUsedAsIs: both ends and past them. -/
theorem witness_literal_offsets :
    parseInt? "-32768".toList = some (-32768) ∧ parseInt? "32767".toList = some 32767 ∧
      parseInt? "-32769".toList = some (-32769) ∧ parseInt? "32768".toList = some 32768 := by decide

/-- LabelOffsetIsAbsoluteOrRelative: an undefined label, the last address in range and the one past it,
and the relative offsets at the lower end and past it. -/
theorem witness_label_offsets :
    parseInt? "far".toList = none ∧ symtabFind [] "far".toList = none ∧
      symtabFind [("far".toList, 32767)] "far".toList = some 32767 ∧
      symtabFind [("far".toList, 32768)] "far".toList = some 32768 ∧
      (-32768 : Int) ≤ ((0 : Nat) : Int) - (((32767 : Nat) : Int) + 1) ∧
      ((0 : Nat) : Int) - (((32768 : Nat) : Int) + 1) < -32768 ∧ Opcode.lw ≠ .beq := by decide

/-- TakenBranchLandsOnItsLabel: E31's branch at its own address. -/
theorem witness_branch_to_label :
    let s := st [29360128, 16842750] 1 0 0 0
    SourceOp.ofText? (rec3 "beq" "0" "0" "loop").opcode = some (.instr .beq) ∧
      NamesLabel [("loop".toList, 0)] (rec3 "beq" "0" "0" "loop").op2 0 ∧
      encRecord (rec3 "beq" "0" "0" "loop") [("loop".toList, 0)] s.pc = .ok 16842750 ∧
      s.run = .running ∧ s.fetch = some 16842750 ∧ 0 < s.lwc :=
  ⟨rfl, ⟨_, rfl, rfl, rfl⟩, rfl, rfl, rfl, by decide⟩

/-- FillMakesTheWordOrFails: the ends of the literal range, past them, and a label. -/
theorem witness_fill_values :
    parseInt? "-2147483648".toList = some (-2147483648) ∧ parseInt? "2147483647".toList = some 2147483647 ∧
      parseInt? "-2147483649".toList = some (-2147483649) ∧ parseInt? "2147483648".toList = some 2147483648 ∧
      parseInt? "x".toList = none ∧ symtabFind [] "x".toList = none ∧
      symtabFind [("x".toList, 2147483647)] "x".toList = some 2147483647 ∧
      symtabFind [("x".toList, 2147483648)] "x".toList = some 2147483648 := by decide

/-- FillMakesTheWordOrFails: a record with an operand, and one without. -/
theorem witness_fill_records :
    SourceOp.ofText? (rec3 ".fill" "x" "" "").opcode = some .fill ∧
      (rec3 ".fill" "x" "" "").op0 = some "x".toList ∧
      SourceOp.ofText? (labelled "" ".fill").opcode = some .fill ∧ (labelled "" ".fill").op0 = none :=
  ⟨rfl, rfl, rfl, rfl⟩

/-- OtherOpcodeTextIsUnrecognized: a text outside the nine, an absent one, and one of the nine. -/
theorem witness_opcode_texts :
    (∀ t ∈ ["add", "nor", "lw", "sw", "beq", "jalr", "halt", "noop", ".fill"],
      some "Add".toList ≠ some t.toList ∧ (none : Option Text) ≠ some t.toList) ∧
    (∃ t ∈ ["add", "nor", "lw", "sw", "beq", "jalr", "halt", "noop", ".fill"],
      some ".fill".toList = some t.toList) :=
  ⟨by decide, ".fill", by decide, rfl⟩

/-- OnlyReadOperandsMatter: records that differ in an unread operand, and records that lack a read one. -/
theorem witness_unread_operands :
    (rec3 "jalr" "4" "7" "a").opcode = (rec3 "jalr" "4" "7" "b").opcode ∧
      (rec3 "jalr" "4" "7" "a").op0 = (rec3 "jalr" "4" "7" "b").op0 ∧
      (rec3 "jalr" "4" "7" "a").op1 = (rec3 "jalr" "4" "7" "b").op1 ∧
      (labelled "" "jalr").op0 = none ∧ Opcode.jalr.format ≠ .oType ∧ Opcode.lw.format ≠ .jType ∧
      SourceOp.ofText? (rec3 ".fill" "1" "" "").opcode = some .fill ∧
      SourceOp.ofText? (rec3 "noop" "" "" "").opcode = some (.instr .noop) :=
  ⟨rfl, rfl, rfl, rfl, by decide, by decide, rfl, rfl⟩

/-- OnlyReadOperandsMatter: a record that fails at op0, at op1, and at op2 by each format's rule. -/
theorem witness_failing_operands :
    regOperand (rec3 "jalr" "8" "x" "").op0 0 = .error (.badRegister 0 "8".toList) ∧
    (regOperand (rec3 "sw" "7" "-1" "40000").op0 3 = .ok 7 ∧
      regOperand (rec3 "sw" "7" "-1" "40000").op1 3 = .error (.badRegister 3 "-1".toList)) ∧
    (SourceOp.ofText? (rec3 "nor" "0" "7" "3x").opcode = some (.instr .nor) ∧
      regOperand (rec3 "nor" "0" "7" "3x").op0 0 = .ok 0 ∧
      regOperand (rec3 "nor" "0" "7" "3x").op1 0 = .ok 7 ∧
      regOperand (rec3 "nor" "0" "7" "3x").op2 0 = .error (.badRegister 0 "3x".toList)) ∧
    (SourceOp.ofText? (rec3 "lw" "0" "7" "32768").opcode = some (.instr .lw) ∧
      regOperand (rec3 "lw" "0" "7" "32768").op0 0 = .ok 0 ∧
      regOperand (rec3 "lw" "0" "7" "32768").op1 0 = .ok 7 ∧
      offsetOperand (rec3 "lw" "0" "7" "32768").op2 .lw [] 0 =
        .error (.offsetOutOfRange 0 "32768".toList)) :=
  ⟨rfl, ⟨rfl, rfl⟩, ⟨rfl, rfl, rfl, rfl⟩, ⟨rfl, rfl, rfl, rfl⟩⟩

/-- CycleLimitStopsBeforeTheFetch, CappedRunAlwaysEnds: a state at its limit and one below it. -/
theorem witness_cycle_limit :
    (runTrace { maxCycles := some 0, maxLineLength := 0 } 0 (st [0] 0 0 0 0)).2 =
        .nonTerminating (st [0] 0 0 0 0) ∧
      0 ≤ (st [0] 0 0 0 0).count ∧ 3 ≤ (st [0] 0 0 0 0).count + 3 := by decide

/-- HaltedRunReportsItsCountAndSnapshots: the first and the last word of a snapshot of three words, and
the two snapshots of a run of a noop and a halt. -/
theorem witness_snapshots :
    0 < (st [7, 0, 5] 0 0 0 0).snapshot.mem.length ∧ 2 < (st [7, 0, 5] 0 0 0 0).snapshot.mem.length ∧
      0 < (runTrace { maxLineLength := 0 } 2 (st [29360128, 25165824] 0 0 0 0)).1.length ∧
      1 < (runTrace { maxLineLength := 0 } 2 (st [29360128, 25165824] 0 0 0 0)).1.length := by decide

/-- CapDoesNotChangeARunThatHaltsWithinIt, HaltedRunReportsItsCountAndSnapshots,
ExitStatusIsZeroExactlyAtHalt: a run of one halt. -/
theorem witness_halted_run :
    runTrace { maxCycles := none, maxLineLength := 0 } 1 (st [25165824] 0 0 0 0) =
        ([(st [25165824] 0 0 0 0).snapshot],
          .halted { pc := 1, regs := Vector.replicate 8 0, mem := [25165824] } 1) ∧
      (st [25165824] 0 0 0 0).run = .running ∧
      load ["x".toList] = .error (.badWordLine 0 "x".toList) ∧
      assemble [labelled "" "foo"] = .error (.unrecognizedOpcode 0 (some "foo".toList)) := by
  refine ⟨by decide, rfl, rfl, rfl⟩

end Sys2Proof.Tests
end

/-! Proofs about 00_scope.md: which states step (R18), how a word prints (R22) and what a successful
assembly gives (R15). -/

namespace Sys2Proof.Machine

/-! ## Which states have a step -/

theorem step_of_halted {s : State} (h : s.run = .halted) : step s = .fault .halted := by
  simp only [step, h]

theorem step_of_faulted {s : State} {record : FaultRecord} (h : s.run = .faulted record) :
    step s = .fault (.faulted record) := by
  simp only [step, h]

/-- Settles O20: a running state steps whatever it fetches (`step_of_running`), and a step that answers
a next state began in a running one (`step_cases`). -/
theorem exactlyRunningStatesStep : Obligations.ExactlyRunningStatesStep := fun _ =>
  ⟨⟨fun ⟨_, h⟩ => (step_cases h).1, step_of_running⟩, step_of_halted, fun _ => step_of_faulted⟩

/-! ## Decimal numerals -/

theorem digitVal?_digitChar {d : Nat} (h : d < 10) : digitVal? (digitChar d) = some d := by
  revert d
  decide

theorem digitChar_mem_digits {d : Nat} (h : d < 10) : '0' ≤ digitChar d ∧ digitChar d ≤ '9' := by
  revert d
  decide

/-- Reading a digit appends it to the value of the digits before it. -/
theorem digitsVal?_digitChar_cons {d : Nat} (h : d < 10) (acc : Nat) (cs : Text) :
    digitsVal? acc (digitChar d :: cs) = digitsVal? (acc * 10 + d) cs := by
  simp only [digitsVal?, digitVal?_digitChar h]

theorem decimalDigits_of_lt {n : Nat} (h : n < 10) (fuel : Nat) (tail : Text) :
    decimalDigits (fuel + 1) n tail = digitChar n :: tail :=
  if_pos h

theorem decimalDigits_of_not_lt {n : Nat} (h : ¬ n < 10) (fuel : Nat) (tail : Text) :
    decimalDigits (fuel + 1) n tail = decimalDigits fuel (n / 10) (digitChar (n % 10) :: tail) :=
  if_neg h

/-- The digits of `n` are read as `n`, when there is fuel for all of them. -/
theorem digitsVal?_decimalDigits {fuel n : Nat} (h : n < 10 ^ fuel) (tail : Text) :
    digitsVal? 0 (decimalDigits fuel n tail) = digitsVal? n tail := by
  induction fuel generalizing n tail with
  | zero =>
    obtain rfl : n = 0 := by omega
    rfl
  | succ fuel ih =>
    by_cases hn : n < 10
    · rw [decimalDigits_of_lt hn, digitsVal?_digitChar_cons hn, Nat.zero_mul, Nat.zero_add]
    · have hq : n / 10 < 10 ^ fuel := by omega
      rw [decimalDigits_of_not_lt hn, ih hq, digitsVal?_digitChar_cons (Nat.mod_lt n (by decide)),
        Nat.div_add_mod' n 10]

theorem decimalDigits_ne_nil {fuel : Nat} {tail : Text} (h : 0 < fuel ∨ tail ≠ []) (n : Nat) :
    decimalDigits fuel n tail ≠ [] := by
  induction fuel generalizing n tail with
  | zero => exact h.resolve_left (Nat.lt_irrefl 0)
  | succ fuel ih =>
    by_cases hn : n < 10
    · rw [decimalDigits_of_lt hn]
      exact List.cons_ne_nil _ _
    · rw [decimalDigits_of_not_lt hn]
      exact ih (.inr (List.cons_ne_nil _ _)) _

theorem mem_decimalDigits {fuel n : Nat} {tail : Text} {c : Char}
    (h : c ∈ decimalDigits fuel n tail) : ('0' ≤ c ∧ c ≤ '9') ∨ c ∈ tail := by
  induction fuel generalizing n tail with
  | zero => exact .inr h
  | succ fuel ih =>
    by_cases hn : n < 10
    · rw [decimalDigits_of_lt hn] at h
      obtain rfl | h := List.mem_cons.1 h
      · exact .inl (digitChar_mem_digits hn)
      · exact .inr h
    · rw [decimalDigits_of_not_lt hn] at h
      obtain h | h := ih h
      · exact .inl h
      · obtain rfl | h := List.mem_cons.1 h
        · exact .inl (digitChar_mem_digits (Nat.mod_lt n (by decide)))
        · exact .inr h

theorem printNat_ne_nil (n : Nat) : printNat n ≠ [] :=
  decimalDigits_ne_nil (.inl (by decide)) n

theorem mem_printNat {n : Nat} {c : Char} (h : c ∈ printNat n) : '0' ≤ c ∧ c ≤ '9' :=
  (mem_decimalDigits h).resolve_right List.not_mem_nil

theorem parseNat?_of_ne_nil {ds : Text} (h : ds ≠ []) : parseNat? ds = digitsVal? 0 ds := by
  cases ds with
  | nil => exact absurd rfl h
  | cons c cs => rfl

theorem parseNat?_printNat {n : Nat} (h : n < 10 ^ 10) : parseNat? (printNat n) = some n := by
  rw [parseNat?_of_ne_nil (printNat_ne_nil n)]
  exact digitsVal?_decimalDigits h []

theorem parseInt?_minus {cs : Text} {n : Nat} (h : parseNat? cs = some n) :
    parseInt? ('-' :: cs) = some (-(n : Int)) := by
  rw [parseInt?, h]
  rfl

/-- A token of digits begins with no sign, and is read as a natural number. -/
theorem parseInt?_of_digits {ds : Text} {n : Nat} (hds : ∀ c ∈ ds, '0' ≤ c ∧ c ≤ '9')
    (h : parseNat? ds = some n) : parseInt? ds = some (n : Int) := by
  unfold parseInt?
  split
  · exact absurd (hds '+' List.mem_cons_self) (by decide)
  · exact absurd (hds '-' List.mem_cons_self) (by decide)
  · rw [h]
    rfl

/-! ## Printed words -/

/-- The range of a `Word32` (00_scope.md R21). -/
theorem word_toInt_range (w : Word) : -(2 : Int) ^ 31 ≤ w.toInt ∧ w.toInt ≤ 2 ^ 31 - 1 :=
  ⟨BitVec.le_toInt w, Int.le_sub_one_of_lt (BitVec.toInt_lt (x := w))⟩

/-- The digits of every word's magnitude fit the ten that `printNat` has fuel for. -/
theorem word_natAbs_lt (w : Word) : w.toInt.natAbs < 10 ^ 10 := by
  obtain ⟨hlo, hhi⟩ := word_toInt_range w
  omega

theorem parseInt?_printWord (w : Word) : parseInt? (printWord w) = some w.toInt := by
  have hread := parseNat?_printNat (word_natAbs_lt w)
  unfold printWord
  by_cases hneg : w.toInt < 0
  · rw [if_pos hneg, parseInt?_minus hread, Int.ofNat_natAbs_of_nonpos (Int.le_of_lt hneg), Int.neg_neg]
  · rw [if_neg hneg, parseInt?_of_digits (fun _ => mem_printNat) hread,
      Int.natAbs_of_nonneg (Int.not_lt.1 hneg)]

/-- Settles O36: the digits are `printNat` of the word's magnitude. -/
theorem printedWordReadsBack : Obligations.PrintedWordReadsBack := fun w =>
  ⟨(word_toInt_range w).1, (word_toInt_range w).2,
    ⟨printNat w.toInt.natAbs, printNat_ne_nil _, fun _ => mem_printNat, rfl⟩, parseInt?_printWord w⟩

/-! ## Pass 2 and the driver, where they succeed -/

theorem pass2From_cons_eq_ok_iff {symtab : Symtab} {addr : Nat} {r : Record} {rs : List Record}
    {ws : List Word} : pass2From symtab addr (r :: rs) = .ok ws ↔
      ∃ w ws', encRecord r symtab addr = .ok w ∧ pass2From symtab (addr + 1) rs = .ok ws' ∧
        ws = w :: ws' := by
  rw [pass2From]
  cases encRecord r symtab addr with
  | error e => simp
  | ok w =>
    cases pass2From symtab (addr + 1) rs with
    | error e => simp
    | ok ws' => simp [eq_comm]

/-- Pass 2 succeeds exactly with one word a record, word `i` the encoding of record `i` at its own
address. -/
theorem pass2From_eq_ok_iff {symtab : Symtab} {addr : Nat} {recs : List Record} {ws : List Word} :
    pass2From symtab addr recs = .ok ws ↔ ws.length = recs.length ∧
      ∀ (i : Nat) (r : Record), recs[i]? = some r →
        ∃ w, ws[i]? = some w ∧ encRecord r symtab (addr + i) = .ok w := by
  induction recs generalizing addr ws with
  | nil => simp [pass2From, eq_comm (a := [])]
  | cons r rs ih =>
    rw [pass2From_cons_eq_ok_iff]
    constructor
    · rintro ⟨w, ws, hw, hws, rfl⟩
      obtain ⟨hlen, hrest⟩ := ih.1 hws
      refine ⟨congrArg (· + 1) hlen, fun i r' hi => ?_⟩
      cases i with
      | zero =>
        cases hi
        exact ⟨w, rfl, hw⟩
      | succ i =>
        rw [← Nat.succ_add_eq_add_succ addr i]
        exact hrest i r' hi
    · rintro ⟨hlen, hall⟩
      obtain ⟨w, ws, rfl⟩ := List.exists_cons_of_length_eq_add_one hlen
      obtain ⟨w', hw', henc⟩ := hall 0 r rfl
      cases hw'
      refine ⟨w, ws, henc, ih.2 ⟨Nat.succ.inj hlen, fun i r' hi => ?_⟩, rfl⟩
      rw [Nat.succ_add_eq_add_succ addr i]
      exact hall (i + 1) r' hi

theorem assemble_eq_ok_iff {recs : List Record} {ws : List Word} : assemble recs = .ok ws ↔
    ∃ symtab n, pass1 recs = .ok (symtab, n) ∧ pass2From symtab 0 recs = .ok ws := by
  unfold assemble
  rcases pass1 recs with e | ⟨symtab, n⟩ <;> simp

/-- Settles O42: the driver is pass 1, then pass 2 from address 0 with pass 1's table. -/
theorem assembledWordsAreTheRecordsEncodings : Obligations.AssembledWordsAreTheRecordsEncodings := by
  intro recs ws
  simp only [assemble_eq_ok_iff, pass2From_eq_ok_iff, Nat.zero_add]

end Sys2Proof.Machine

/-! Proofs about 10_state.md: registers (R31), the reset state (R44), the run state's transitions (R39),
the count (R40), the invariant (R36, R38, R43) and what a run reports (R47). -/

namespace Sys2Proof.Machine

/-! ## Registers -/

/-- Settles O29: the read after a write is `State.readReg_writeReg`, and add is one write. -/
theorem noRegisterIsHardwired : Obligations.NoRegisterIsHardwired := by
  refine ⟨fun s r r' v => ⟨?_, fun hne => ?_⟩, fun s a b => ⟨_, execAdd_eq a b 0 s, ?_⟩⟩
  · rw [State.readReg_writeReg, if_pos rfl]
  · rw [State.readReg_writeReg, if_neg hne]
  · exact (State.readReg_writeReg s 0 0 _).trans (if_pos rfl)

/-! ## The reset state of an image -/

theorem State.memRead_ofImage (img : List Word) {i : Nat} (h : i < img.length) :
    (State.ofImage img).memRead i = some img[i] := by
  refine (State.memRead_eq_some_iff _ _ _).2 ⟨Int.natCast_nonneg i, Int.ofNat_lt.2 h, ?_⟩
  have hget : (State.ofImage img).mem.get i = (img[i - 0]?).getD Memory.unlisted :=
    (Memory.get_ofWordsFrom img 0 i).trans (if_pos (Nat.zero_le i))
  rw [Int.toNat_natCast, hget, Nat.sub_zero, List.getElem?_eq_getElem h, Option.getD_some]

/-- Settles O32: registers, pc, `lwc`, run state and count are fields of `State.ofImage`, and memory
holds the image's words. -/
theorem resetStateOfAnImage : Obligations.ResetStateOfAnImage := fun img =>
  ⟨fun r => Vector.getElem_replicate r.isLt, rfl, fun _ h => State.memRead_ofImage img h,
    fun a h => (State.memRead_eq_none_iff _ a).2 h, rfl, rfl, rfl⟩

/-- Settles O34: the words of an image stand in canonical form at the addresses below its length. -/
theorem everyLoadedImageMeetsInv : Obligations.EveryLoadedImageMeetsInv := fun img hfits =>
  { pc_le_lwc := Nat.zero_le _
    lwc_le_capacity := hfits
    mem_wf := Memory.wf_ofWordsFrom img 0
    mem_below_lwc := fun _ hc => Nat.lt_of_lt_of_eq (Memory.mem_ofWordsFrom hc).2.1 (Nat.zero_add _) }

/-! ## The invariant -/

theorem State.Inv.faultedBy {s : State} (h : s.Inv) (f : RuntimeFault) (v : Int) :
    (s.faultedBy f v).Inv :=
  ⟨h.pc_le_lwc, h.lwc_le_capacity, h.mem_wf, h.mem_below_lwc⟩

/-- The link of an instruction below the memory's capacity is its successor's address, unwrapped. -/
theorem State.toInt_linkValue_advance {s : State} (h : s.pc < Config.memCapacity) :
    s.advance.linkValue.toInt = (s.pc : Int) + 1 := by
  have hcap : s.pc < 65536 := h
  show (BitVec.ofInt 32 ((s.pc + 1 : Nat) : Int)).toInt = (s.pc : Int) + 1
  rw [Int.natCast_succ]
  exact BitVec.toInt_ofInt_eq_self (by decide) (by omega) (by omega)

/-- No instruction among the loaded words leaves `pc` past `lwc`: the advance reaches `lwc` at most, a
branch target is below it and a jump target at most it. -/
theorem exec_pc_le_lwc {i : Instr} {s t : State} (h : exec i s = .next t) (hpc : s.pc < s.lwc)
    (hcap : s.lwc ≤ Config.memCapacity) : t.pc ≤ s.lwc := by
  have hstay : s.pc ≤ s.lwc := Nat.le_of_lt hpc
  have hadv : s.pc + 1 ≤ s.lwc := hpc
  cases i with
  | add a b d => cases h; exact hadv
  | nor a b d => cases h; exact hadv
  | lw a b off =>
    cases hm : s.memRead (s.effectiveAddress a off) with
    | none => cases (execLw_outOfRange hm b).symm.trans h; exact hstay
    | some w => cases (execLw_inRange hm b).symm.trans h; exact hadv
  | sw a b off =>
    by_cases hin : s.inBounds (s.effectiveAddress a off) = true
    · cases (execSw_inRange hin b).symm.trans h; exact hadv
    · cases (execSw_outOfRange hin b).symm.trans h; exact hstay
  | beq a b off =>
    by_cases hin : s.inBounds (s.advance.branchTarget off) = true
    · cases (execBeq_inRange hin a b).symm.trans h
      have htarget := (State.inBounds_iff _ _).1 hin
      show (if s.readReg a = s.readReg b then (s.advance.branchTarget off).toNat else s.pc + 1) ≤ s.lwc
      split
      · omega
      · exact hadv
    · cases (execBeq_outOfRange hin a b).symm.trans h; exact hstay
  | jalr a b =>
    by_cases hin : s.jumpInBounds (s.jumpTarget a) = true
    · cases (execJalr_inRange hin b).symm.trans h
      have htarget := (State.jumpInBounds_iff _ _).1 hin
      have hlink := State.toInt_linkValue_advance (Nat.lt_of_lt_of_le hpc hcap)
      show (if a = b then s.advance.linkValue.toInt else s.jumpTarget a).toNat ≤ s.lwc
      split <;> omega
    · cases (execJalr_outOfRange hin b).symm.trans h; exact hstay
  | halt => cases h; exact hadv
  | noop => cases h; exact hadv

theorem exec_keeps_inv {i : Instr} {s t : State} (hs : s.Inv) (hpc : s.pc < s.lwc)
    (h : exec i s = .next t) : t.Inv := by
  have hpct := exec_pc_le_lwc h hpc hs.lwc_le_capacity
  obtain ⟨f, v, hfault, -⟩ | ⟨-, regs, pc, mem, hdone, -, hmem⟩ := exec_cases i s
  · cases hfault.symm.trans h
    exact hs.faultedBy f v
  · cases hdone.symm.trans h
    obtain rfl | ⟨a, v, -, h0, hlt, rfl⟩ := hmem
    · exact ⟨hpct, hs.lwc_le_capacity, hs.mem_wf, hs.mem_below_lwc⟩
    · have ha : a.toNat < s.lwc := by omega
      exact ⟨hpct, hs.lwc_le_capacity, Memory.wf_put hs.mem_wf _ v,
        Memory.below_put v hs.mem_below_lwc ha⟩

/-- Settles O35: a faulted fetch changes the run state alone, and every instruction that is fetched
keeps the invariant. -/
theorem everyStepKeepsInv : Obligations.EveryStepKeepsInv := by
  intro s t hs h
  obtain ⟨-, ⟨-, rfl⟩ | ⟨w, hf, hexec⟩⟩ := step_cases h
  · exact hs.faultedBy _ _
  · exact exec_keeps_inv hs ((State.fetch_eq_some_iff s w).1 hf).1 hexec

/-! ## Transitions of the run state -/

/-- An instruction whose address is out of range raises the fault of the table's row for it. -/
theorem exec_raises_of_not_keepsInRange {s : State} {w : Word} (hf : s.fetch = some w)
    (hk : ¬ keepsInRange (decode w) s) :
    ∃ f v, exec (decode w) s = .next (s.faultedBy f v) ∧ s.Raises f v := by
  cases hd : decode w with
  | add | nor | halt | noop => rw [hd] at hk; exact absurd trivial hk
  | lw a b off =>
    rw [hd] at hk
    have hout : s.effectiveAddress a off < 0 ∨ (s.lwc : Int) ≤ s.effectiveAddress a off :=
      (not_and_or.1 hk).imp Int.not_le.1 Int.not_lt.1
    exact ⟨_, _, execLw_outOfRange ((State.memRead_eq_none_iff _ _).2 hout) b,
      w, a, b, off, hf, .inl hd, rfl, hout⟩
  | sw a b off =>
    rw [hd] at hk
    have hout : s.effectiveAddress a off < 0 ∨ (s.lwc : Int) ≤ s.effectiveAddress a off :=
      (not_and_or.1 hk).imp Int.not_le.1 Int.not_lt.1
    exact ⟨_, _, execSw_outOfRange (mt (State.inBounds_iff _ _).1 hk) b,
      w, a, b, off, hf, .inr hd, rfl, hout⟩
  | beq a b off =>
    rw [hd] at hk
    have hout : s.advance.branchTarget off < 0 ∨ (s.lwc : Int) ≤ s.advance.branchTarget off :=
      (not_and_or.1 hk).imp Int.not_le.1 Int.not_lt.1
    exact ⟨_, _, execBeq_outOfRange (mt (State.inBounds_iff _ _).1 hk) a b,
      w, a, b, off, hf, hd, rfl, hout⟩
  | jalr a b =>
    rw [hd] at hk
    have hout : s.jumpTarget a < 0 ∨ (s.lwc : Int) < s.jumpTarget a :=
      (not_and_or.1 hk).imp Int.not_le.1 Int.not_le.1
    exact ⟨_, _, execJalr_outOfRange (mt (State.jumpInBounds_iff _ _).1 hk) b,
      w, a, b, hf, hd, rfl, hout⟩

/-- A step raises a fault of the table, or it completes the instruction it fetched, counts it, and
stays running unless that is a halt. -/
theorem step_raises_or_completes {s t : State} (h : step s = .next t) :
    (¬ s.StepSafe ∧ ∃ f v, t = s.faultedBy f v ∧ s.Raises f v) ∨
    (s.StepSafe ∧ ∃ w, s.fetch = some w ∧ exec (decode w) s = .next t ∧ t.count = s.count + 1 ∧
      t.run = if decode w = .halt then .halted else .running) := by
  obtain ⟨hr, ⟨hf, rfl⟩ | ⟨w, hf, hexec⟩⟩ := step_cases h
  · refine .inl ⟨fun ⟨w, hw, _⟩ => ?_, _, _, rfl, (State.fetch_eq_none_iff s).1 hf, rfl⟩
    cases hf.symm.trans hw
  · by_cases hk : keepsInRange (decode w) s
    · obtain ⟨_, _, -, hnot⟩ | ⟨-, regs, pc, mem, hdone, -⟩ := exec_cases (decode w) s
      · exact absurd hk hnot
      · cases hdone.symm.trans hexec
        exact .inr ⟨⟨w, hf, hk⟩, w, hf, hexec, rfl, by rw [hr]⟩
    · obtain ⟨f, v, hfault, hraises⟩ := exec_raises_of_not_keepsInRange hf hk
      cases hfault.symm.trans hexec
      refine .inl ⟨fun ⟨w', hw', hk'⟩ => hk ?_, f, v, rfl, hraises⟩
      cases hf.symm.trans hw'
      exact hk'

/-- A halt addresses nothing, so a step that fetches one raises no fault. -/
theorem State.stepSafe_of_fetch_halt {s : State} (h : s.fetch.map decode = some .halt) :
    s.StepSafe := by
  obtain ⟨w, hw, hd⟩ := Option.map_eq_some_iff.1 h
  exact ⟨w, hw, by rw [hd]; trivial⟩

/-- Settles O22: a step that raises ends faulted and fetched no halt, and a completed one ends halted
or running by the instruction it fetched. -/
theorem runStateTransitions : Obligations.RunStateTransitions := by
  intro s t h
  obtain ⟨hunsafe, f, v, rfl, hraises⟩ | ⟨hsafe, w, hf, -, -, hrun⟩ := step_raises_or_completes h
  · refine ⟨⟨nofun, fun hh => absurd (State.stepSafe_of_fetch_halt hh) hunsafe⟩, ?_,
      ⟨nofun, fun hh => absurd hh.1 hunsafe⟩⟩
    rintro record ⟨⟩
    exact ⟨rfl, rfl, hraises⟩
  · by_cases hd : decode w = .halt
    · rw [if_pos hd] at hrun
      simp [hrun, hf, hd]
    · rw [if_neg hd] at hrun
      simp [hrun, hf, hd, hsafe]

/-! ## The count -/

/-- An instruction executed under another count: the same effect, and the same growth of the count. -/
theorem exec_withCount {i : Instr} {s t : State} (c : Nat) (h : exec i s = .next t) :
    ∃ t', exec i { s with count := c } = .next t' ∧ { t' with count := t.count } = t ∧
      t'.count + s.count = t.count + c := by
  have hcount : c + 1 + s.count = s.count + 1 + c := by omega
  have hstay : c + s.count = s.count + c := Nat.add_comm c s.count
  cases i with
  | add a b d => cases h; exact ⟨_, rfl, rfl, hcount⟩
  | nor a b d => cases h; exact ⟨_, rfl, rfl, hcount⟩
  | lw a b off =>
    cases hm : s.memRead (s.effectiveAddress a off) with
    | none =>
      cases (execLw_outOfRange hm b).symm.trans h
      exact ⟨_, execLw_outOfRange (s := { s with count := c }) hm b, rfl, hstay⟩
    | some w =>
      cases (execLw_inRange hm b).symm.trans h
      exact ⟨_, execLw_inRange (s := { s with count := c }) hm b, rfl, hcount⟩
  | sw a b off =>
    by_cases hin : s.inBounds (s.effectiveAddress a off) = true
    · cases (execSw_inRange hin b).symm.trans h
      exact ⟨_, execSw_inRange (s := { s with count := c }) hin b, rfl, hcount⟩
    · cases (execSw_outOfRange hin b).symm.trans h
      exact ⟨_, execSw_outOfRange (s := { s with count := c }) hin b, rfl, hstay⟩
  | beq a b off =>
    by_cases hin : s.inBounds (s.advance.branchTarget off) = true
    · cases (execBeq_inRange hin a b).symm.trans h
      exact ⟨_, execBeq_inRange (s := { s with count := c }) hin a b, rfl, hcount⟩
    · cases (execBeq_outOfRange hin a b).symm.trans h
      exact ⟨_, execBeq_outOfRange (s := { s with count := c }) hin a b, rfl, hstay⟩
  | jalr a b =>
    by_cases hin : s.jumpInBounds (s.jumpTarget a) = true
    · cases (execJalr_inRange hin b).symm.trans h
      exact ⟨_, execJalr_inRange (s := { s with count := c }) hin b, rfl, hcount⟩
    · cases (execJalr_outOfRange hin b).symm.trans h
      exact ⟨_, execJalr_outOfRange (s := { s with count := c }) hin b, rfl, hstay⟩
  | halt => cases h; exact ⟨_, rfl, rfl, hcount⟩
  | noop => cases h; exact ⟨_, rfl, rfl, hcount⟩

/-- Settles O25: neither the fetch nor the fetched instruction reads the count. -/
theorem noInstructionReadsTheCount : Obligations.NoInstructionReadsTheCount := by
  intro s t c h
  obtain ⟨hr, ⟨hf, rfl⟩ | ⟨w, hf, hexec⟩⟩ := step_cases h
  · exact ⟨_, step_of_fetch_none (s := { s with count := c }) hr hf, rfl, Nat.add_comm c s.count⟩
  · rw [step_of_fetch (s := { s with count := c }) hr hf]
    exact exec_withCount c hexec

/-! ## A jalr to the end of the loaded words -/

/-- Settles O26: the target test of jalr admits `lwc` (decision D5) and the fetch does not (D4). -/
theorem jalrToLwcFaultsAtTheNextFetch : Obligations.JalrToLwcFaultsAtTheNextFetch := by
  intro s w a b hr hf hd hab hlwc
  have hin : s.jumpInBounds (s.jumpTarget a) = true :=
    (State.jumpInBounds_iff _ _).2 ⟨(Int.natCast_nonneg s.lwc).trans_eq hlwc.symm, Int.le_of_eq hlwc⟩
  have hpc : (if a = b then s.advance.linkValue.toInt else s.jumpTarget a).toNat = s.lwc := by
    rw [if_neg hab, State.jumpTarget, hlwc, Int.toNat_natCast]
  have hstep := (step_of_fetch hr hf).trans (congrArg (exec · s) hd) |>.trans (execJalr_inRange hin b)
  rw [hpc] at hstep
  refine ⟨_, hstep, hr, rfl, ?_, step_of_fetch_none hr ((State.fetch_eq_none_iff _).2 Nat.le.refl)⟩
  exact (State.readReg_writeReg s b b _).trans (if_pos rfl)

/-! ## What a run reports -/

theorem State.memRead_words (s : State) {i : Nat} (h : i < s.words.length) :
    s.memRead i = some s.words[i] := by
  have hlt : i < s.lwc := s.length_words ▸ h
  rw [State.getElem_words]
  exact (State.memRead_eq_some_iff _ _ _).2 ⟨Int.natCast_nonneg i, Int.ofNat_lt.2 hlt, rfl⟩

/-- Snapshot `i` of a trace is that of the running state after `i` steps. -/
theorem runTrace_getElem? {cfg : Config} {fuel i : Nat} {s : State}
    (h : i < (runTrace cfg fuel s).1.length) :
    ∃ u : State, Host.Core.run Sys2Proof.core i s = .next u ∧ u.run = .running ∧
      (runTrace cfg fuel s).1[i]? = some u.snapshot := by
  induction fuel generalizing s i with
  | zero => cases he : runEnd? cfg s <;> simp [runTrace, he] at h
  | succ fuel ih =>
    cases he : runEnd? cfg s with
    | some e => simp [runTrace_of_end he] at h
    | none =>
      have hr := (runEnd?_eq_none_iff.1 he).1
      obtain ⟨t, ht⟩ := step_of_running hr
      rw [runTrace_of_step he ht] at h ⊢
      cases i with
      | zero => exact ⟨s, rfl, hr, rfl⟩
      | succ i =>
        obtain ⟨u, hu, hur, hget⟩ := ih (Nat.lt_of_succ_lt_succ h)
        exact ⟨u, (run_succ Sys2Proof.core i s t ht).trans hu, hur, hget⟩

theorem runEnd?_eq_halted_iff {cfg : Config} {s : State} {final : Snapshot} {c : Nat} :
    runEnd? cfg s = some (.halted final c) ↔
      s.run = .halted ∧ final = s.snapshot ∧ c = s.count := by
  cases hr : s.run with
  | halted => simp [runEnd?, hr, eq_comm]
  | faulted record => simp [runEnd?, hr]
  | running =>
    cases hc : cfg.maxCycles with
    | none => simp [runEnd?, hr, hc]
    | some n => by_cases hn : n ≤ s.count <;> simp [runEnd?, hr, hc, hn]

/-- A run that halts begins halted, or it takes a step and the rest of it halts. -/
theorem runTrace_halted_cases {cfg : Config} {fuel : Nat} {s : State} {trace : List Snapshot}
    {final : Snapshot} {c : Nat} (h : runTrace cfg fuel s = (trace, .halted final c)) :
    (trace = [] ∧ s.run = .halted ∧ final = s.snapshot ∧ c = s.count) ∨
    ∃ fuel' t trace', s.run = .running ∧ step s = .next t ∧ trace = s.snapshot :: trace' ∧
      runTrace cfg fuel' t = (trace', .halted final c) := by
  cases he : runEnd? cfg s with
  | some e =>
    cases (runTrace_of_end he fuel).symm.trans h
    exact .inl ⟨rfl, runEnd?_eq_halted_iff.1 he⟩
  | none =>
    cases fuel with
    | zero => simp [runTrace, he] at h
    | succ fuel =>
      have hr := (runEnd?_eq_none_iff.1 he).1
      obtain ⟨t, ht⟩ := step_of_running hr
      rw [runTrace_of_step he ht, Prod.mk.injEq] at h
      exact .inr ⟨fuel, t, _, hr, ht, h.1.symm, Prod.ext rfl h.2⟩

/-- A step that ends halted executed a halt, which changes pc, run state and count alone. -/
theorem step_to_halted {s t : State} (h : step s = .next t) (ht : t.run = .halted) :
    s.fetch.map decode = some .halt ∧
      t = { s with pc := s.pc + 1, run := .halted, count := s.count + 1 } := by
  have hfetch := (runStateTransitions s t h).1.1 ht
  obtain ⟨w, hw, hd⟩ := Option.map_eq_some_iff.1 hfetch
  have hexec := (step_of_fetch (step_cases h).1 hw).symm.trans h
  rw [hd] at hexec
  cases hexec
  exact ⟨hfetch, rfl⟩

theorem step_to_running_count {s t : State} (h : step s = .next t) (ht : t.run = .running) :
    t.count = s.count + 1 := by
  obtain ⟨-, f, v, rfl, -⟩ | ⟨-, w, -, -, hcount, -⟩ := step_raises_or_completes h
  · cases ht
  · exact hcount

/-- What a run from a running state reports when it halts, by induction on its trace: the last step of
the trace is the halt, and every step before it ends running. -/
theorem runTrace_halted_report {cfg : Config} {fuel : Nat} {s : State} {trace : List Snapshot}
    {final : Snapshot} {c : Nat} (hr : s.run = .running)
    (h : runTrace cfg fuel s = (trace, .halted final c)) :
    s.count + trace.length = c ∧
    (∃ t : State, Host.Core.run Sys2Proof.core trace.length s = .next t ∧ t.run = .halted ∧
      final = t.snapshot ∧ c = t.count) ∧
    ∃ u : State, trace.getLast? = some u.snapshot ∧ u.fetch.map decode = some .halt ∧
      final = { u.snapshot with pc := u.pc + 1 } := by
  induction trace generalizing fuel s with
  | nil =>
    obtain ⟨-, hhalted, -⟩ | ⟨_, _, _, -, -, hcons, -⟩ := runTrace_halted_cases h
    · cases hr.symm.trans hhalted
    · cases hcons
  | cons snap trace ih =>
    obtain ⟨hnil, -⟩ | ⟨fuel', t, _, -, ht, hcons, hrest⟩ := runTrace_halted_cases h
    · cases hnil
    cases hcons
    have hrun := run_succ Sys2Proof.core trace.length s t ht
    obtain ⟨rfl, hhalted, rfl, rfl⟩ | ⟨_, _, _, htr, -⟩ := runTrace_halted_cases hrest
    · obtain ⟨hfetch, rfl⟩ := step_to_halted ht hhalted
      exact ⟨rfl, ⟨_, hrun, rfl, rfl, rfl⟩, s, rfl, hfetch, rfl⟩
    · obtain ⟨hcount, ⟨v, hv, hvreport⟩, u, hlast, hureport⟩ := ih htr hrest
      refine ⟨?_, ⟨v, hrun.trans hv, hvreport⟩, u, ?_, hureport⟩
      · rw [List.length_cons, ← hcount, step_to_running_count ht htr]
        omega
      · rw [List.getLast?_cons, hlast, Option.getD_some]

/-- Settles O54: the fields of a snapshot, `runTrace_getElem?` and `runTrace_halted_report`. -/
theorem haltedRunReportsItsCountAndSnapshots : Obligations.HaltedRunReportsItsCountAndSnapshots :=
  ⟨fun s => ⟨rfl, fun _ => rfl, s.length_words, fun _ h => s.memRead_words h⟩,
    fun _ _ _ _ h => runTrace_getElem? h, fun _ _ _ _ _ _ hr h => runTrace_halted_report hr h⟩

end Sys2Proof.Machine

/-! Proofs about 20_memory.md: the canonical form (R60, notes/assumptions/3.md), the two memory
primitives (R63, R70) and a store over the next instruction (R73). -/

namespace Sys2Proof.Machine

/-! ## The canonical form -/

/-- At rising addresses no entry stands in front of another for the same address. -/
theorem Memory.get_of_mem {m : Memory} (h : m.Pairwise fun c d => c.1 < d.1) {c : Cell} (hc : c ∈ m) :
    m.get c.1 = c.2 := by
  induction m with
  | nil => exact absurd hc List.not_mem_nil
  | cons d rest ih =>
    obtain ⟨hd, hrest⟩ := List.pairwise_cons.1 h
    obtain rfl | hc := List.mem_cons.1 hc
    · exact if_pos rfl
    · exact (if_neg (Nat.ne_of_lt (hd c hc))).trans (ih hrest hc)

theorem Memory.mem_of_get {m : Memory} {c : Cell} (hget : m.get c.1 = c.2)
    (hne : c.2 ≠ Memory.unlisted) : c ∈ m := by
  induction m with
  | nil => exact absurd hget.symm hne
  | cons d rest ih =>
    by_cases haddr : d.1 = c.1
    · have hword : d.2 = c.2 := (if_pos haddr).symm.trans hget
      exact List.mem_cons.2 (.inl (Prod.ext haddr hword).symm)
    · exact List.mem_cons_of_mem d (ih ((if_neg haddr).symm.trans hget))

/-- The entries of canonical contents are the reads that differ from what is unlisted. -/
theorem Memory.mem_iff_of_wf {m : Memory} (h : m.wf) (c : Cell) :
    c ∈ m ↔ m.get c.1 = c.2 ∧ c.2 ≠ Memory.unlisted :=
  ⟨fun hc => ⟨Memory.get_of_mem h.1 hc, h.2 c hc⟩, fun ⟨hget, hne⟩ => Memory.mem_of_get hget hne⟩

theorem Memory.nodup_of_wf {m : Memory} (h : m.wf) : m.Nodup :=
  h.1.imp fun hlt heq => Nat.ne_of_lt hlt (congrArg Prod.fst heq)

/-- Settles O31: equal reads give the same entries (`Memory.mem_iff_of_wf`), and one set of entries has
one order of rising addresses. -/
theorem canonicalMemoriesAreDeterminedByTheirReads :
    Obligations.CanonicalMemoriesAreDeterminedByTheirReads := by
  intro m m' h h' hget
  have hmem : ∀ c, c ∈ m ↔ c ∈ m' := fun c => by
    rw [Memory.mem_iff_of_wf h, Memory.mem_iff_of_wf h', hget]
  have hperm : m.Perm m' :=
    (List.perm_ext_iff_of_nodup (Memory.nodup_of_wf h) (Memory.nodup_of_wf h')).2 hmem
  exact hperm.eq_of_pairwise (fun _ _ _ _ hlt hgt => absurd hgt (Nat.lt_asymm hlt)) h.1 h'.1

/-! ## The two primitives -/

/-- Settles O30: where each primitive is defined, and what an address reads as after a write
(`State.memRead_put`). -/
theorem memoryReadsTheLastWrite : Obligations.MemoryReadsTheLastWrite := by
  intro s a v
  refine ⟨by simp [State.memRead_eq_some_iff], by simp [State.memWrite_eq_some_iff], fun t ht => ?_⟩
  obtain ⟨h0, hlt, rfl⟩ := (State.memWrite_eq_some_iff s t a v).1 ht
  refine ⟨?_, fun b hb => ?_, rfl⟩
  · rw [State.memRead_put s h0 hlt, if_pos rfl]
  · rw [State.memRead_put s h0 hlt, if_neg hb]

/-! ## A store over the next instruction -/

/-- Settles O27: the store puts its word at the address the advance leaves in `pc`, and the fetch reads
the memory of the state it is made in. -/
theorem storeIsSeenByTheNextFetch : Obligations.StoreIsSeenByTheNextFetch := by
  intro s w a b off hr hf hd haddr hlt
  have hea : s.effectiveAddress a off = (s.pc : Int) + 1 := haddr
  have hin : s.inBounds (s.effectiveAddress a off) = true := (State.inBounds_iff _ _).2 (by omega)
  have hstore : (s.effectiveAddress a off).toNat = s.pc + 1 := by omega
  have hstep : step s = execSw a b off s := by rw [step_of_fetch hr hf, hd, exec]
  rw [execSw_inRange hin b, hstore] at hstep
  have hread : (s.mem.put (s.pc + 1) (s.readReg b)).get (s.pc + 1) = s.readReg b :=
    (Memory.get_put _ _ _ _).trans (if_pos rfl)
  refine ⟨_, hstep, ?hfetch, step_of_fetch hr ?hfetch⟩
  exact (State.fetch_eq_some_iff _ _).2 ⟨hlt, hread.symm⟩

end Sys2Proof.Machine

/-! Proofs about 30_encoding.md Part A: the formats (R82 to R86, R90, R92), the opcode map (R87), the
fields (R88, R89), and decode against encode (R93). -/

namespace Sys2Proof

/-! ## The offset field -/

/-- `sext_16` is the two's complement reading of the field. -/
theorem sext16_eq_toInt (f : BitVec 16) : sext16 f = f.toInt := by
  rw [BitVec.toInt_eq_msb_cond, BitVec.msb_eq_getLsbD_last]
  rfl

theorem offsetInRange_sext16 (f : BitVec 16) : offsetInRange (sext16 f) = true := by
  rw [sext16_eq_toInt, offsetInRange_iff]
  exact ⟨BitVec.le_toInt f, Int.le_sub_one_of_lt (BitVec.toInt_lt (x := f))⟩

theorem sext16_maskOffset {v : Int} (h : offsetInRange v = true) : sext16 (maskOffset v) = v := by
  obtain ⟨hlo, hhi⟩ := (offsetInRange_iff v).1 h
  rw [sext16_eq_toInt]
  exact BitVec.toInt_ofInt_eq_self (by decide) hlo (Int.lt_of_le_sub_one hhi)

theorem maskOffset_sext16 (f : BitVec 16) : maskOffset (sext16 f) = f := by
  rw [sext16_eq_toInt]
  exact BitVec.ofInt_toInt

/-! ## The opcode and register fields -/

theorem Opcode.ofField_code (o : Opcode) : Opcode.ofField (BitVec.ofNat 3 o.code) = o := by
  cases o <;> rfl

theorem Opcode.code_ofField (f : BitVec 3) : (Opcode.ofField f).code = f.toNat := by
  revert f
  decide

theorem regOfField_ofFin (r : Reg) : regOfField (BitVec.ofFin r) = r := rfl

theorem packReg_regOfField (f : BitVec 3) : packReg (regOfField f) = f.setWidth 32 :=
  BitVec.ofNat_toNat 32 f

theorem packOpcode_ofField (f : BitVec 3) : packOpcode (Opcode.ofField f) = f.setWidth 32 <<< 22 := by
  rw [packOpcode, Opcode.code_ofField, BitVec.ofNat_toNat]

/-! ## The instruction of the fields -/

theorem Fields.opcode_toInstr (f : Fields) : f.toInstr.opcode = Opcode.ofField f.opcode := by
  unfold Fields.toInstr
  cases Opcode.ofField f.opcode <;> rfl

theorem Fields.wf_toInstr (f : Fields) : f.toInstr.wf = true := by
  unfold Fields.toInstr
  cases Opcode.ofField f.opcode with
  | lw | sw | beq => exact offsetInRange_sext16 f.offset
  | add | nor | jalr | halt | noop => rfl

theorem Fields.offset_toInstr {f : Fields} {a b : Reg} {off : Int}
    (h : f.toInstr = .lw a b off ∨ f.toInstr = .sw a b off ∨ f.toInstr = .beq a b off) :
    off = sext16 f.offset := by
  unfold Fields.toInstr at h
  cases ho : Opcode.ofField f.opcode with
  | lw | sw | beq =>
    simp only [ho, Instr.lw.injEq, Instr.sw.injEq, Instr.beq.injEq, reduceCtorEq, false_or,
      or_false] at h
    obtain ⟨-, -, hoff⟩ := h
    exact hoff.symm
  | add | nor | jalr | halt | noop => simp [ho] at h

theorem opcode_decode (w : Word) : (decode w).opcode = Opcode.ofField (decodeFields w).opcode :=
  (decodeFields w).opcode_toInstr

theorem wf_decode (w : Word) : (decode w).wf = true :=
  (decodeFields w).wf_toInstr

/-! ## Decoding a packed word -/

theorem decodeFields_or (x y : Word) : decodeFields (x ||| y) =
    { opcode := (decodeFields x).opcode ||| (decodeFields y).opcode
      regA := (decodeFields x).regA ||| (decodeFields y).regA
      regB := (decodeFields x).regB ||| (decodeFields y).regB
      destReg := (decodeFields x).destReg ||| (decodeFields y).destReg
      offset := (decodeFields x).offset ||| (decodeFields y).offset } := by
  simp only [decodeFields, BitVec.extractLsb'_or]

theorem decodeFields_packOpcode (o : Opcode) :
    decodeFields (packOpcode o) = ⟨BitVec.ofNat 3 o.code, 0, 0, 0, 0⟩ := by
  cases o <;> rfl

theorem decodeFields_packReg_shiftLeft_19 (r : Reg) :
    decodeFields (packReg r <<< 19) = ⟨0, BitVec.ofFin r, 0, 0, 0⟩ := by
  revert r
  decide

theorem decodeFields_packReg_shiftLeft_16 (r : Reg) :
    decodeFields (packReg r <<< 16) = ⟨0, 0, BitVec.ofFin r, 0, 0⟩ := by
  revert r
  decide

theorem decodeFields_packReg (r : Reg) :
    decodeFields (packReg r) = ⟨0, 0, 0, BitVec.ofFin r, BitVec.ofNat 16 r.val⟩ := by
  revert r
  decide

/-- A slice of an offset field that begins past its 16 bits is 0. -/
theorem extractLsb'_offsetField {start : Nat} (h : 16 ≤ start) (len : Nat) (f : BitVec 16) :
    (f.setWidth 32).extractLsb' start len = 0 := by
  ext k hk
  have hpast : f.getLsbD (start + k) = false := BitVec.getLsbD_of_ge f _ (Nat.le_add_right_of_le h)
  simp [hpast]

theorem decodeFields_offsetField (f : BitVec 16) :
    decodeFields (f.setWidth 32) = ⟨0, 0, 0, f.extractLsb' 0 3, f⟩ := by
  have hhigh (start : Nat) (h : 16 ≤ start) : (f.setWidth 32).extractLsb' start 3 = 0 :=
    extractLsb'_offsetField h 3 f
  have hlow (len : Nat) (h : len ≤ 32) : (f.setWidth 32).extractLsb' 0 len = f.extractLsb' 0 len :=
    BitVec.extractLsb'_setWidth_of_le (by omega)
  simp only [decodeFields, hhigh 22 (by decide), hhigh 19 (by decide), hhigh 16 (by decide),
    hlow 3 (by decide), hlow 16 (by decide), BitVec.extractLsb'_eq_self]

theorem decodeFields_packJ (o : Opcode) (a b : Reg) : decodeFields (packJ o a b) =
    ⟨BitVec.ofNat 3 o.code, BitVec.ofFin a, BitVec.ofFin b, 0, 0⟩ := by
  simp [packJ, decodeFields_or, decodeFields_packOpcode, decodeFields_packReg_shiftLeft_19,
    decodeFields_packReg_shiftLeft_16]

theorem decodeFields_packR (o : Opcode) (a b d : Reg) : decodeFields (packR o a b d) =
    ⟨BitVec.ofNat 3 o.code, BitVec.ofFin a, BitVec.ofFin b, BitVec.ofFin d, BitVec.ofNat 16 d.val⟩ := by
  have hJ : packR o a b d = packJ o a b ||| packReg d := rfl
  simp [hJ, decodeFields_or, decodeFields_packJ, decodeFields_packReg]

theorem decodeFields_packI (o : Opcode) (a b : Reg) (f : BitVec 16) : decodeFields (packI o a b f) =
    ⟨BitVec.ofNat 3 o.code, BitVec.ofFin a, BitVec.ofFin b, f.extractLsb' 0 3, f⟩ := by
  have hJ : packI o a b f = packJ o a b ||| f.setWidth 32 := rfl
  simp [hJ, decodeFields_or, decodeFields_packJ, decodeFields_offsetField]

/-- No operand of a well-formed instruction is lost between the encoder and the decoder. -/
theorem decode_encode {i : Instr} (h : i.wf = true) : decode (encode i) = i := by
  unfold decode encode
  cases i with
  | add a b d | nor a b d =>
    simp only [decodeFields_packR, Fields.toInstr, Opcode.ofField_code, regOfField_ofFin]
  | lw a b off | sw a b off | beq a b off =>
    simp only [decodeFields_packI, Fields.toInstr, Opcode.ofField_code, regOfField_ofFin,
      sext16_maskOffset h]
  | jalr a b =>
    simp only [decodeFields_packJ, Fields.toInstr, Opcode.ofField_code, regOfField_ofFin]
  | halt | noop => rfl

/-- Settles O1: `decode_encode`, and the sign extension of a 16-bit field is in range. -/
theorem decodeInvertsEncode : Obligations.DecodeInvertsEncode :=
  ⟨fun _ => decode_encode, wf_decode⟩

/-! ## Slices as shifts and masks -/

/-- A slice is the document's `(w >> start) & mask`, the mask being `len` ones. -/
theorem setWidth_extractLsb' (w : Word) (start : Nat) {len : Nat} {mask : Word}
    (hmask : (BitVec.allOnes len).setWidth 32 = mask) :
    (w.extractLsb' start len).setWidth 32 = (w >>> start) &&& mask := by
  subst hmask
  ext k hk
  simp [Bool.and_comm]

/-- A slice put back in its place is the word with every other bit cleared. -/
theorem setWidth_extractLsb'_shiftLeft (w : Word) (start len : Nat) :
    (w.extractLsb' start len).setWidth 32 <<< start =
      w &&& (BitVec.allOnes len).setWidth 32 <<< start := by
  ext k hk
  by_cases hlt : k < start
  · simp [hlt]
  · have hpos : start + (k - start) = k := by omega
    simp [hlt, hpos, hk, Bool.and_comm]

/-- A slice is the same whether the word is shifted in zeros or in signs. -/
theorem extractLsb'_sshiftRight (w : Word) {start len : Nat} (h : start + len ≤ 32) :
    (w.sshiftRight start).extractLsb' 0 len = w.extractLsb' start len := by
  ext k hk
  have hpos : start + k < 32 := by omega
  have hk32 : ¬ 32 ≤ k := by omega
  simp [BitVec.getLsbD_sshiftRight, hpos, hk32]

/-- Settles O5: the fields are slices, and `setWidth_extractLsb'` says each as a shift and a mask. -/
theorem fieldsAreShiftsAndMasks : Obligations.FieldsAreShiftsAndMasks := by
  intro w
  have hlow {len : Nat} {mask : Word} (hmask : (BitVec.allOnes len).setWidth 32 = mask) :
      (w.extractLsb' 0 len).setWidth 32 = w &&& mask := by
    rw [setWidth_extractLsb' w 0 hmask, BitVec.ushiftRight_zero]
  exact ⟨setWidth_extractLsb' w 22 rfl, setWidth_extractLsb' w 19 rfl, setWidth_extractLsb' w 16 rfl,
    hlow rfl, hlow rfl, extractLsb'_sshiftRight w (by decide), extractLsb'_sshiftRight w (by decide),
    extractLsb'_sshiftRight w (by decide)⟩

/-- Settles O6: `sext16` subtracts 2^16 where bit 15 is set, `Fields.offset_toInstr` says where it is
used. -/
theorem offsetFieldIsSignExtended : Obligations.OffsetFieldIsSignExtended := by
  refine ⟨fun f => ⟨fun hneg => ?_, fun hpos => ?_, ?_⟩, fun w a b off h => ?_⟩
  · rw [sext16, if_pos hneg]
    rfl
  · rw [sext16, if_neg (Bool.eq_false_iff.1 hpos)]
  · exact (offsetInRange_iff _).1 (offsetInRange_sext16 f)
  · exact Fields.offset_toInstr (f := decodeFields w) h

/-! ## Encoding what a word decodes to -/

theorem packOpcode_decodeFields (w : Word) :
    packOpcode (Opcode.ofField (decodeFields w).opcode) = w &&& 0x01C00000 :=
  (packOpcode_ofField _).trans (setWidth_extractLsb'_shiftLeft w 22 3)

theorem packJ_decodeFields (w : Word) :
    packJ (Opcode.ofField (decodeFields w).opcode) (regOfField (decodeFields w).regA)
      (regOfField (decodeFields w).regB) = w &&& 0x01FF0000 := by
  have hA : (decodeFields w).regA.setWidth 32 <<< 19 = w &&& 0x00380000 :=
    setWidth_extractLsb'_shiftLeft w 19 3
  have hB : (decodeFields w).regB.setWidth 32 <<< 16 = w &&& 0x00070000 :=
    setWidth_extractLsb'_shiftLeft w 16 3
  rw [packJ, packOpcode_decodeFields, packReg_regOfField, packReg_regOfField, hA, hB,
    ← BitVec.and_or_distrib_left, ← BitVec.and_or_distrib_left]
  rfl

theorem packR_decodeFields (w : Word) :
    packR (Opcode.ofField (decodeFields w).opcode) (regOfField (decodeFields w).regA)
      (regOfField (decodeFields w).regB) (regOfField (decodeFields w).destReg) = w &&& 0x01FF0007 := by
  obtain ⟨-, -, -, hdest, -⟩ := fieldsAreShiftsAndMasks w
  have hpack := congrArg₂ (· ||| ·) (packJ_decodeFields w) hdest
  rw [← packReg_regOfField, ← BitVec.and_or_distrib_left] at hpack
  exact hpack

theorem packI_decodeFields (w : Word) :
    packI (Opcode.ofField (decodeFields w).opcode) (regOfField (decodeFields w).regA)
      (regOfField (decodeFields w).regB) (maskOffset (sext16 (decodeFields w).offset)) =
        w &&& 0x01FFFFFF := by
  obtain ⟨-, -, -, -, hoffset, -⟩ := fieldsAreShiftsAndMasks w
  have hpack := congrArg₂ (· ||| ·) (packJ_decodeFields w) hoffset
  rw [← BitVec.and_or_distrib_left] at hpack
  rw [maskOffset_sext16]
  exact hpack

/-- Encoding what a word decodes to clears the bits its format does not read. -/
theorem encode_decode (w : Word) :
    encode (decode w) = w &&& Machine.usedBits (decode w).opcode.format := by
  rw [opcode_decode]
  have hO := packOpcode_decodeFields w
  have hJ := packJ_decodeFields w
  have hR := packR_decodeFields w
  have hI := packI_decodeFields w
  unfold decode Fields.toInstr
  cases ho : Opcode.ofField (decodeFields w).opcode with
  | add | nor =>
    rw [ho] at hR
    exact hR
  | lw | sw | beq =>
    rw [ho] at hI
    exact hI
  | jalr =>
    rw [ho] at hJ
    exact hJ
  | halt | noop =>
    rw [ho] at hO
    exact hO

/-- Settles O3: `encode_decode`, and decoding that word again gives the instruction
(`decode_encode`). -/
theorem encodeOfDecodeClearsUnusedBits : Obligations.EncodeOfDecodeClearsUnusedBits := fun w =>
  ⟨encode_decode w, encode_decode w ▸ decode_encode (wf_decode w)⟩

/-- An encoded instruction is zero in every bit that its format does not read. -/
theorem encode_and_usedBits {i : Instr} (h : i.wf = true) :
    encode i &&& Machine.usedBits i.opcode.format = encode i := by
  have hmask := encode_decode (encode i)
  rw [decode_encode h] at hmask
  exact hmask.symm

theorem encode_and_unusedBits {i : Instr} (h : i.wf = true) :
    encode i &&& ~~~Machine.usedBits i.opcode.format = 0 := by
  rw [← encode_and_usedBits h, BitVec.and_assoc, BitVec.and_not_self]
  exact BitVec.and_zero

/-! ## The opcode map -/

theorem packOpcode_injective : Function.Injective packOpcode :=
  Function.LeftInverse.injective (g := fun w => (decode w).opcode) fun o => by
    show (decode (packOpcode o)).opcode = o
    rw [opcode_decode, decodeFields_packOpcode, Opcode.ofField_code]

/-- Settles O4: the masked word is the opcode word of what the word decodes to, and opcode words
differ. -/
theorem opcodeMapSelectsByBits24To22 : Obligations.OpcodeMapSelectsByBits24To22 := by
  refine ⟨fun w o => ?_, rfl⟩
  show (decode w).opcode = o ↔ w &&& 0x01C00000 = packOpcode o
  rw [← packOpcode_decodeFields, ← opcode_decode, packOpcode_injective.eq_iff]

end Sys2Proof

/-! Proofs about 30_encoding.md Part B: opcode texts (R113, R114), operands (R99 to R106), and the word
or the error of a record (R93, R107 to R112, R115, R116, R124). -/

namespace Sys2Proof.Machine

/-! ## Opcode texts -/

theorem SourceOp.mem_sourceOps (op : SourceOp) : op ∈ sourceOps := by
  cases op with
  | instr o => cases o <;> decide
  | fill => decide

theorem SourceOp.ofText?_text (op : SourceOp) : SourceOp.ofText? (some op.text) = some op := by
  cases op with
  | instr o => cases o <;> rfl
  | fill => rfl

/-- An opcode text names the operation it is the spelling of, and no other. -/
theorem SourceOp.ofText?_eq_some_iff {t : Option Text} {op : SourceOp} :
    SourceOp.ofText? t = some op ↔ t = some op.text := by
  constructor
  · intro h
    cases t with
    | none => cases h
    | some x =>
      have hfound : decide (op.text = x) = true :=
        List.find?_some (p := fun o : SourceOp => decide (o.text = x)) h
      rw [of_decide_eq_true hfound]
  · rintro rfl
    exact SourceOp.ofText?_text op

/-- Settles O56: the table's rows are the nine operations, each with its spelling. -/
theorem eachOpcodeTextNamesItsOwnOperation : Obligations.EachOpcodeTextNamesItsOwnOperation := by
  intro t op
  rw [SourceOp.ofText?_eq_some_iff]
  have hrow (x : String) : (x, op) ∈ sourceOps.map (fun o => (String.ofList o.text, o)) ↔
      x = String.ofList op.text := by
    simp [SourceOp.mem_sourceOps, eq_comm]
  constructor
  · rintro rfl
    exact ⟨String.ofList op.text, by rw [String.toList_ofList], (hrow _).2 rfl⟩
  · rintro ⟨x, rfl, hx⟩
    rw [(hrow x).1 hx, String.toList_ofList]

/-! ## Register operands -/

theorem regOperand_none (addr : Nat) : regOperand none addr = .error (.missingOperand addr) := rfl

theorem regOperand_of_not_int {x : Text} (hx : parseInt? x = none) (addr : Nat) :
    regOperand (some x) addr = .error (.badRegister addr x) := by
  simp only [regOperand, hx]

theorem regOperand_of_int {x : Text} {v : Int} (hx : parseInt? x = some v) (addr : Nat) :
    regOperand (some x) addr =
      if 0 ≤ v ∧ v ≤ 7 then .ok (Fin.ofNat 8 v.toNat) else .error (.badRegister addr x) := by
  simp only [regOperand, hx]

theorem regOperand_eq_ok_iff {t : Option Text} {addr : Nat} {r : Reg} :
    regOperand t addr = .ok r ↔ NamesReg t r := by
  constructor
  · intro h
    cases t with
    | none => cases h
    | some x =>
      cases hx : parseInt? x with
      | none => cases (regOperand_of_not_int hx addr).symm.trans h
      | some v =>
        rw [regOperand_of_int hx] at h
        split at h
        · cases h
          have hv : ((v.toNat % 8 : Nat) : Int) = v := by omega
          exact ⟨x, rfl, hx.trans (congrArg some hv.symm)⟩
        · cases h
  · rintro ⟨x, rfl, hx⟩
    have hrange : 0 ≤ ((r.val : Nat) : Int) ∧ ((r.val : Nat) : Int) ≤ 7 := by omega
    rw [regOperand_of_int hx, if_pos hrange, Int.toNat_natCast, Fin.ofNat_val_eq_self]

/-- Settles O44: `regOperand_eq_ok_iff`, and the error of each other text. -/
theorem registerOperandMustBeZeroToSeven : Obligations.RegisterOperandMustBeZeroToSeven := by
  refine ⟨fun t addr r => regOperand_eq_ok_iff, regOperand_none, fun x addr h => ?_⟩
  obtain hx | ⟨v, hx, hout⟩ := h
  · exact regOperand_of_not_int hx addr
  · rw [regOperand_of_int hx, if_neg (by omega)]

/-! ## Offset operands -/

/-- The value of a label offset before its field: the label's address, for beq relative to the record
after it (30_encoding.md R103, R104). -/
def labelOffset (o : Opcode) (addr l : Nat) : Int :=
  if o = .beq then (l : Int) - ((addr : Int) + 1) else l

theorem labelOffset_beq (addr l : Nat) : labelOffset .beq addr l = (l : Int) - ((addr : Int) + 1) := rfl

theorem labelOffset_of_ne {o : Opcode} (ho : o ≠ .beq) (addr l : Nat) : labelOffset o addr l = l :=
  if_neg ho

theorem offsetOperand_of_int {x : Text} {v : Int} (hx : parseInt? x = some v) (o : Opcode)
    (symtab : Symtab) (addr : Nat) : offsetOperand (some x) o symtab addr =
      if offsetInRange v then .ok (maskOffset v) else .error (.offsetOutOfRange addr x) := by
  simp only [offsetOperand, hx]

theorem offsetOperand_of_undefined {x : Text} {symtab : Symtab} (hx : parseInt? x = none)
    (hl : symtabFind symtab x = none) (o : Opcode) (addr : Nat) :
    offsetOperand (some x) o symtab addr = .error (.undefinedLabel addr x) := by
  simp only [offsetOperand, hx, hl]

theorem offsetInRange_labelOffset_iff {l : Nat} (hle : l ≤ 32767) (o : Opcode) (addr : Nat) :
    offsetInRange (labelOffset o addr l) = true ↔ -32768 ≤ labelOffset o addr l := by
  have hhi : labelOffset o addr l ≤ 32767 := by
    unfold labelOffset
    split <;> omega
  rw [offsetInRange_iff, and_iff_left hhi]

/-- A label offset is accepted where its label's address fits the field and so does its own value. -/
theorem offsetOperand_of_label {x : Text} {symtab : Symtab} {l : Nat} (hx : parseInt? x = none)
    (hl : symtabFind symtab x = some l) (o : Opcode) (addr : Nat) :
    offsetOperand (some x) o symtab addr =
      if l ≤ 32767 ∧ -32768 ≤ labelOffset o addr l then .ok (maskOffset (labelOffset o addr l))
      else .error (.offsetOutOfRange addr x) := by
  have hmax : (l : Int) ≤ Config.offsetMax ↔ l ≤ 32767 := Int.ofNat_le (n := 32767)
  simp only [offsetOperand, hx, hl, hmax]
  by_cases hle : l ≤ 32767
  · by_cases ho : o = .beq
    · subst ho
      simp only [hle, if_true, true_and, ← labelOffset_beq, offsetInRange_labelOffset_iff hle]
    · have hlo : -32768 ≤ (l : Int) := by omega
      simp only [hle, ho, hlo, labelOffset_of_ne ho, if_true, if_false, true_and]
  · simp only [hle, if_false, false_and]

/-- An accepted offset operand is a literal or a label, and its field holds the operand's value. -/
theorem offset_of_offsetOperand {t : Option Text} {o : Opcode} {symtab : Symtab} {addr : Nat}
    {f : BitVec 16} (h : offsetOperand t o symtab addr = .ok f) :
    ∃ off, offsetInRange off = true ∧ f = maskOffset off ∧
      (NamesInt t off ∨ ∃ l : Nat, NamesLabel symtab t l ∧ off = labelOffset o addr l) := by
  cases t with
  | none => cases h
  | some x =>
    cases hx : parseInt? x with
    | some v =>
      rw [offsetOperand_of_int hx] at h
      split at h
      next hin => cases h; exact ⟨v, hin, rfl, .inl ⟨x, rfl, hx⟩⟩
      next => cases h
    | none =>
      cases hl : symtabFind symtab x with
      | none => cases (offsetOperand_of_undefined hx hl o addr).symm.trans h
      | some l =>
        rw [offsetOperand_of_label hx hl] at h
        split at h
        next hin =>
          cases h
          exact ⟨_, (offsetInRange_labelOffset_iff hin.1 o addr).2 hin.2, rfl,
            .inr ⟨l, ⟨x, rfl, hx, hl⟩, rfl⟩⟩
        next => cases h

/-- Settles O45: `offsetOperand_of_int`, whatever the operation. -/
theorem literalOffsetIsUsedAsIs : Obligations.LiteralOffsetIsUsedAsIs := by
  intro x v o symtab addr hx
  rw [offsetOperand_of_int hx]
  refine ⟨fun hlo hhi => ?_, fun hout => if_neg fun hin => ?_⟩
  · have hin : offsetInRange v = true := (offsetInRange_iff v).2 ⟨hlo, hhi⟩
    exact ⟨_, if_pos hin, sext16_maskOffset hin⟩
  · have hrange := (offsetInRange_iff v).1 hin
    omega

/-- Settles O46: `offsetOperand_of_label`, with `labelOffset` at beq and at every other operation. -/
theorem labelOffsetIsAbsoluteOrRelative : Obligations.LabelOffsetIsAbsoluteOrRelative := by
  intro x o symtab addr hx
  refine ⟨fun hl => offsetOperand_of_undefined hx hl o addr, fun l hl => ?_⟩
  rw [offsetOperand_of_label hx hl]
  have hinRange (hle : l ≤ 32767) := (offsetInRange_labelOffset_iff hle o addr).2
  refine ⟨fun hgt => if_neg (by omega), fun hle ho => ?_, fun hle ho hlo => ?_, fun hle ho hlo => ?_⟩
  · rw [labelOffset_of_ne ho] at hinRange ⊢
    exact ⟨_, if_pos (by omega), sext16_maskOffset (hinRange hle (by omega))⟩
  · rw [ho, labelOffset_beq] at hinRange ⊢
    exact ⟨_, if_pos ⟨hle, hlo⟩, sext16_maskOffset (hinRange hle hlo)⟩
  · rw [ho, labelOffset_beq]
    exact if_neg (by omega)

/-! ## The directive .fill -/

theorem fillOperand_of_int {x : Text} {v : Int} (hx : parseInt? x = some v) (symtab : Symtab)
    (addr : Nat) : fillOperand (some x) symtab addr =
      if wordInRange v then .ok (wrap32 v) else .error (.fillOutOfRange addr x) := by
  simp only [fillOperand, hx]

theorem fillOperand_of_undefined {x : Text} {symtab : Symtab} (hx : parseInt? x = none)
    (hl : symtabFind symtab x = none) (addr : Nat) :
    fillOperand (some x) symtab addr = .error (.undefinedLabel addr x) := by
  simp only [fillOperand, hx, hl]

theorem fillOperand_of_label {x : Text} {symtab : Symtab} {l : Nat} (hx : parseInt? x = none)
    (hl : symtabFind symtab x = some l) (addr : Nat) : fillOperand (some x) symtab addr =
      if l < 2 ^ 31 then .ok (wrap32 l) else .error (.fillOutOfRange addr x) := by
  have hmax : (l : Int) ≤ Config.wordMax ↔ l < 2 ^ 31 := by
    rw [Config.wordMax]
    omega
  simp only [fillOperand, hx, hl, hmax]

theorem toInt_wrap32 {v : Int} (hlo : -(2 : Int) ^ 31 ≤ v) (hhi : v ≤ 2 ^ 31 - 1) :
    (wrap32 v).toInt = v :=
  BitVec.toInt_ofInt_eq_self (by decide) hlo (Int.lt_of_le_sub_one hhi)

/-- Settles O48: the word of a record is that of its `.fill` operand, a literal or a label. -/
theorem fillMakesTheWordOrFails : Obligations.FillMakesTheWordOrFails := by
  intro r symtab addr hop
  rw [encRecord_fill hop]
  refine ⟨fun h0 => by rw [h0]; rfl, fun x h0 => ?_⟩
  rw [h0]
  refine ⟨fun v hx => ?_, fun hx => ⟨fun hl => fillOperand_of_undefined hx hl addr, fun l hl => ?_⟩⟩
  · rw [fillOperand_of_int hx]
    refine ⟨fun hlo hhi => ?_, fun hout => if_neg fun hin => ?_⟩
    · exact ⟨_, if_pos ((wordInRange_iff v).2 ⟨hlo, hhi⟩), toInt_wrap32 hlo hhi⟩
    · have hrange := (wordInRange_iff v).1 hin
      omega
  · rw [fillOperand_of_label hx hl]
    refine ⟨fun hlt => ⟨_, if_pos hlt, toInt_wrap32 (by omega) (by omega)⟩, fun hge => if_neg ?_⟩
    omega

/-! ## The word of a record -/

/-- What an instruction record encodes to once its register operands op0 and op1 are read as `a` and
`b`: op2 by its format's rule, then the packing. -/
def encWithRegs (o : Opcode) (r : Record) (symtab : Symtab) (addr : Nat) (a b : Reg) :
    Except AsmError Word :=
  match o.format with
  | .rType => (regOperand r.op2 addr).map (packR o a b)
  | .iType => (offsetOperand r.op2 o symtab addr).map (packI o a b)
  | .jType => .ok (packJ o a b)
  | .oType => .ok (packO o)

/-- Every format that reads operands reads op0 and op1 as registers, in that order, before op2. -/
theorem encRecord_of_operands {r : Record} {o : Opcode}
    (h : SourceOp.ofText? r.opcode = some (.instr o)) (hf : o.format ≠ .oType) (symtab : Symtab)
    (addr : Nat) : encRecord r symtab addr =
      (regOperand r.op0 addr).bind fun a => (regOperand r.op1 addr).bind fun b =>
        encWithRegs o r symtab addr a b := by
  unfold encWithRegs
  cases hfmt : o.format with
  | rType =>
    rw [encRecord_rType h hfmt, encRType]
    cases regOperand r.op0 addr with
    | error e => rfl
    | ok a =>
      cases regOperand r.op1 addr with
      | error e => rfl
      | ok b => cases regOperand r.op2 addr <;> rfl
  | iType =>
    rw [encRecord_iType h hfmt, encIType]
    cases regOperand r.op0 addr with
    | error e => rfl
    | ok a =>
      cases regOperand r.op1 addr with
      | error e => rfl
      | ok b => cases offsetOperand r.op2 o symtab addr <;> rfl
  | jType =>
    rw [encRecord_jType h hfmt, encJType]
    cases regOperand r.op0 addr with
    | error e => rfl
    | ok a => cases regOperand r.op1 addr <;> rfl
  | oType => exact absurd hfmt hf

theorem encRecord_of_regs {r : Record} {o : Opcode} {addr : Nat} {a b : Reg}
    (h : SourceOp.ofText? r.opcode = some (.instr o)) (hf : o.format ≠ .oType)
    (ha : NamesReg r.op0 a) (hb : NamesReg r.op1 b) (symtab : Symtab) :
    encRecord r symtab addr = encWithRegs o r symtab addr a b := by
  rw [encRecord_of_operands h hf, regOperand_eq_ok_iff.2 ha, regOperand_eq_ok_iff.2 hb]
  rfl

theorem exceptBind_eq_ok {ε α β : Type} {x : Except ε α} {f : α → Except ε β} {y : β}
    (h : x.bind f = .ok y) : ∃ a, x = .ok a ∧ f a = .ok y := by
  cases x with
  | error e => cases h
  | ok a => exact ⟨a, rfl, h⟩

theorem exceptMap_eq_ok {ε α β : Type} {x : Except ε α} {f : α → β} {y : β}
    (h : x.map f = .ok y) : ∃ a, x = .ok a ∧ y = f a := by
  cases x with
  | error e => cases h
  | ok a => cases h; exact ⟨a, rfl, rfl⟩

theorem namesReg_of_encRecord {r : Record} {symtab : Symtab} {addr : Nat} {o : Opcode} {w : Word}
    (h : SourceOp.ofText? r.opcode = some (.instr o)) (hf : o.format ≠ .oType)
    (hw : encRecord r symtab addr = .ok w) :
    ∃ a b, NamesReg r.op0 a ∧ NamesReg r.op1 b ∧ encWithRegs o r symtab addr a b = .ok w := by
  rw [encRecord_of_operands h hf] at hw
  obtain ⟨a, ha, hw⟩ := exceptBind_eq_ok hw
  obtain ⟨b, hb, hw⟩ := exceptBind_eq_ok hw
  exact ⟨a, b, regOperand_eq_ok_iff.1 ha, regOperand_eq_ok_iff.1 hb, hw⟩

theorem encWithRegs_rType {o : Opcode} (hf : o.format = .rType) (r : Record) (symtab : Symtab)
    (addr : Nat) (a b : Reg) :
    encWithRegs o r symtab addr a b = (regOperand r.op2 addr).map (packR o a b) := by
  simp only [encWithRegs, hf]

theorem encWithRegs_iType {o : Opcode} (hf : o.format = .iType) (r : Record) (symtab : Symtab)
    (addr : Nat) (a b : Reg) :
    encWithRegs o r symtab addr a b = (offsetOperand r.op2 o symtab addr).map (packI o a b) := by
  simp only [encWithRegs, hf]

theorem encWithRegs_jType {o : Opcode} (hf : o.format = .jType) (r : Record) (symtab : Symtab)
    (addr : Nat) (a b : Reg) : encWithRegs o r symtab addr a b = .ok (packJ o a b) := by
  simp only [encWithRegs, hf]

theorem namesReg_of_encWithRegs {r : Record} {symtab : Symtab} {addr : Nat} {o : Opcode} {a b : Reg}
    {w : Word} (hf : o.format = .rType) (hw : encWithRegs o r symtab addr a b = .ok w) :
    ∃ d, NamesReg r.op2 d ∧ w = packR o a b d := by
  rw [encWithRegs_rType hf] at hw
  obtain ⟨d, hd, hw⟩ := exceptMap_eq_ok hw
  exact ⟨d, regOperand_eq_ok_iff.1 hd, hw⟩

theorem offset_of_encWithRegs {r : Record} {symtab : Symtab} {addr : Nat} {o : Opcode} {a b : Reg}
    {w : Word} (hf : o.format = .iType) (hw : encWithRegs o r symtab addr a b = .ok w) :
    ∃ off, offsetInRange off = true ∧ w = packI o a b (maskOffset off) ∧
      (NamesInt r.op2 off ∨ ∃ l : Nat, NamesLabel symtab r.op2 l ∧ off = labelOffset o addr l) := by
  rw [encWithRegs_iType hf] at hw
  obtain ⟨f, hoff, rfl⟩ := exceptMap_eq_ok hw
  obtain ⟨off, hin, rfl, hnames⟩ := offset_of_offsetOperand hoff
  exact ⟨off, hin, rfl, hnames⟩

/-- An instruction record encodes as a well-formed instruction of the operation and operands that its
texts name. -/
theorem instr_of_encRecord {r : Record} {symtab : Symtab} {addr : Nat} {o : Opcode} {w : Word}
    (h : SourceOp.ofText? r.opcode = some (.instr o)) (hw : encRecord r symtab addr = .ok w) :
    ∃ i : Instr, i.wf = true ∧ i.opcode = o ∧ w = encode i ∧ OperandsAgree r symtab addr i := by
  cases o with
  | add =>
    obtain ⟨a, b, ha, hb, hw⟩ := namesReg_of_encRecord h (by decide) hw
    obtain ⟨d, hd, rfl⟩ := namesReg_of_encWithRegs rfl hw
    exact ⟨.add a b d, rfl, rfl, rfl, ha, hb, hd⟩
  | nor =>
    obtain ⟨a, b, ha, hb, hw⟩ := namesReg_of_encRecord h (by decide) hw
    obtain ⟨d, hd, rfl⟩ := namesReg_of_encWithRegs rfl hw
    exact ⟨.nor a b d, rfl, rfl, rfl, ha, hb, hd⟩
  | lw =>
    obtain ⟨a, b, ha, hb, hw⟩ := namesReg_of_encRecord h (by decide) hw
    obtain ⟨off, hin, rfl, hoff⟩ := offset_of_encWithRegs rfl hw
    exact ⟨.lw a b off, hin, rfl, rfl, ha, hb, hoff⟩
  | sw =>
    obtain ⟨a, b, ha, hb, hw⟩ := namesReg_of_encRecord h (by decide) hw
    obtain ⟨off, hin, rfl, hoff⟩ := offset_of_encWithRegs rfl hw
    exact ⟨.sw a b off, hin, rfl, rfl, ha, hb, hoff⟩
  | beq =>
    obtain ⟨a, b, ha, hb, hw⟩ := namesReg_of_encRecord h (by decide) hw
    obtain ⟨off, hin, rfl, hoff⟩ := offset_of_encWithRegs rfl hw
    exact ⟨.beq a b off, hin, rfl, rfl, ha, hb, hoff⟩
  | jalr =>
    obtain ⟨a, b, ha, hb, hw⟩ := namesReg_of_encRecord h (by decide) hw
    cases hw
    exact ⟨.jalr a b, rfl, rfl, rfl, ha, hb⟩
  | halt =>
    cases (encRecord_oType h rfl symtab addr).symm.trans hw
    exact ⟨.halt, rfl, rfl, rfl, trivial⟩
  | noop =>
    cases (encRecord_oType h rfl symtab addr).symm.trans hw
    exact ⟨.noop, rfl, rfl, rfl, trivial⟩

/-- Settles O2: the record's instruction (`instr_of_encRecord`) is what its word decodes to. -/
theorem assembledRecordDecodesToItsOperands : Obligations.AssembledRecordDecodesToItsOperands := by
  intro r symtab addr o w h hw
  obtain ⟨i, hwf, rfl, rfl, hagree⟩ := instr_of_encRecord h hw
  rw [decode_encode hwf]
  exact ⟨rfl, hagree⟩

theorem encRecord_and_unusedBits {r : Record} {symtab : Symtab} {addr : Nat} {o : Opcode}
    {format : Format} {w : Word} (h : SourceOp.ofText? r.opcode = some (.instr o))
    (hf : o.format = format) (hw : encRecord r symtab addr = .ok w) : w &&& ~~~usedBits format = 0 := by
  subst hf
  obtain ⟨i, hwf, rfl, rfl, -⟩ := instr_of_encRecord h hw
  exact encode_and_unusedBits hwf

/-- Settles O8: the packing of each format, and zero in the bits it does not read
(`encRecord_and_unusedBits`). -/
theorem packingFollowsEachFormat : Obligations.PackingFollowsEachFormat := by
  intro r symtab addr o a b d f h
  refine ⟨fun hf ha hb hd => ?_, fun hf ha hb hoff => ?_, fun hf ha hb => ?_, fun hf => ?_⟩
  · have hw : encRecord r symtab addr = .ok (packR o a b d) := by
      rw [encRecord_of_regs h (by simp [hf]) ha hb, encWithRegs_rType hf, regOperand_eq_ok_iff.2 hd]
      rfl
    exact ⟨_, hw, rfl, encRecord_and_unusedBits h hf hw⟩
  · have hw : encRecord r symtab addr = .ok (packI o a b f) := by
      rw [encRecord_of_regs h (by simp [hf]) ha hb, encWithRegs_iType hf, hoff]
      rfl
    exact ⟨_, hw, rfl, encRecord_and_unusedBits h hf hw⟩
  · have hw : encRecord r symtab addr = .ok (packJ o a b) := by
      rw [encRecord_of_regs h (by simp [hf]) ha hb, encWithRegs_jType hf]
    exact ⟨_, hw, rfl, encRecord_and_unusedBits h hf hw⟩
  · exact encRecord_oType h hf symtab addr

/-- Settles O47: the encoder's offset is the label's address less the advanced pc, to which the taken
branch adds it. -/
theorem takenBranchLandsOnItsLabel : Obligations.TakenBranchLandsOnItsLabel := by
  intro r symtab l w s h hlabel hw hr hf hlt
  obtain ⟨i, hwf, hop, rfl, hagree⟩ := instr_of_encRecord h hw
  cases i <;> cases hop
  case beq a b off =>
    have hd := decode_encode hwf
    refine ⟨a, b, off, hd, fun heq => ?_⟩
    have htarget : s.advance.branchTarget off = l := by
      obtain ⟨x, hop2, hx, hl⟩ := hlabel
      obtain ⟨-, -, ⟨y, hy, hint⟩ | ⟨l', ⟨y, hy, -, hl'⟩, rfl⟩⟩ := hagree <;>
        cases hop2.symm.trans hy
      · cases hx.symm.trans hint
      · cases hl.symm.trans hl'
        show ((s.pc + 1 : Nat) : Int) + ((l : Int) - ((s.pc : Int) + 1)) = l
        omega
    have hin : s.inBounds (s.advance.branchTarget off) = true := by
      rw [htarget, State.inBounds_iff]
      omega
    have hstep : step s = execBeq a b off s := by rw [step_of_fetch hr hf, hd, exec]
    rw [execBeq_inRange hin, if_pos heq, htarget, Int.toNat_natCast] at hstep
    exact ⟨_, hstep, rfl, hr⟩

/-! ## The errors of a record -/

theorem encRecord_of_op0_error {r : Record} {o : Opcode} {addr : Nat} {e : AsmError}
    (h : SourceOp.ofText? r.opcode = some (.instr o)) (hf : o.format ≠ .oType)
    (h0 : regOperand r.op0 addr = .error e) (symtab : Symtab) : encRecord r symtab addr = .error e := by
  rw [encRecord_of_operands h hf, h0]
  rfl

theorem encRecord_of_op1_error {r : Record} {o : Opcode} {addr : Nat} {a : Reg} {e : AsmError}
    (h : SourceOp.ofText? r.opcode = some (.instr o)) (hf : o.format ≠ .oType)
    (h0 : regOperand r.op0 addr = .ok a) (h1 : regOperand r.op1 addr = .error e) (symtab : Symtab) :
    encRecord r symtab addr = .error e := by
  rw [encRecord_of_operands h hf, h0, h1]
  rfl

theorem encRecord_of_reg_op2_error {r : Record} {o : Opcode} {addr : Nat} {a b : Reg} {e : AsmError}
    (h : SourceOp.ofText? r.opcode = some (.instr o)) (hf : o.format = .rType)
    (h0 : regOperand r.op0 addr = .ok a) (h1 : regOperand r.op1 addr = .ok b)
    (h2 : regOperand r.op2 addr = .error e) (symtab : Symtab) :
    encRecord r symtab addr = .error e := by
  rw [encRecord_of_regs h (by simp [hf]) (regOperand_eq_ok_iff.1 h0) (regOperand_eq_ok_iff.1 h1),
    encWithRegs_rType hf, h2]
  rfl

theorem encRecord_of_offset_op2_error {r : Record} {o : Opcode} {symtab : Symtab} {addr : Nat}
    {a b : Reg} {e : AsmError} (h : SourceOp.ofText? r.opcode = some (.instr o))
    (hf : o.format = .iType) (h0 : regOperand r.op0 addr = .ok a) (h1 : regOperand r.op1 addr = .ok b)
    (h2 : offsetOperand r.op2 o symtab addr = .error e) : encRecord r symtab addr = .error e := by
  rw [encRecord_of_regs h (by simp [hf]) (regOperand_eq_ok_iff.1 h0) (regOperand_eq_ok_iff.1 h1),
    encWithRegs_iType hf, h2]
  rfl

/-- Settles O50: a record's word by its format's operands, its error by the first operand to fail, and
`MissingOperand` from each operand rule. -/
theorem onlyReadOperandsMatter : Obligations.OnlyReadOperandsMatter := by
  refine ⟨fun r r' symtab addr hop => ⟨fun h h0 h1 => ?_, fun h => ?_, fun h h0 => ?_⟩,
    fun r symtab addr o a b e h hf => ⟨fun h0 => ?_, fun h0 h1 => ?_, fun hr h0 h1 h2 => ?_,
      fun hi h0 h1 h2 => ?_⟩,
    fun r symtab addr o a b h hf => ⟨fun h0 => ?_, fun ha h1 => ?_, fun hj ha hb h2 => ?_⟩⟩
  · rw [encRecord_jType h rfl, encRecord_jType (hop ▸ h) rfl, encJType, encJType, h0, h1]
  · obtain h | h := h <;> rw [encRecord_oType h rfl, encRecord_oType (hop ▸ h) rfl]
  · rw [encRecord_fill h, encRecord_fill (hop ▸ h), h0]
  · exact encRecord_of_op0_error h hf h0 symtab
  · exact encRecord_of_op1_error h hf h0 h1 symtab
  · exact encRecord_of_reg_op2_error h hr h0 h1 h2 symtab
  · exact encRecord_of_offset_op2_error h hi h0 h1 h2
  · exact encRecord_of_op0_error h hf (h0 ▸ regOperand_none addr) symtab
  · exact encRecord_of_op1_error h hf (regOperand_eq_ok_iff.2 ha) (h1 ▸ regOperand_none addr) symtab
  · have h0 : regOperand r.op0 addr = .ok a := regOperand_eq_ok_iff.2 ha
    have h1 : regOperand r.op1 addr = .ok b := regOperand_eq_ok_iff.2 hb
    cases hfmt : o.format with
    | rType => exact encRecord_of_reg_op2_error h hfmt h0 h1 (h2 ▸ regOperand_none addr) symtab
    | iType => exact encRecord_of_offset_op2_error h hfmt h0 h1 (h2 ▸ rfl)
    | jType => exact absurd hfmt hj
    | oType => exact absurd hfmt hf

/-! No operand rule gives the error of the opcode text. -/

theorem regOperand_ne_unrecognized (t : Option Text) (addr a : Nat) (x : Option Text) :
    regOperand t addr ≠ .error (.unrecognizedOpcode a x) := by
  unfold regOperand
  repeat' split
  all_goals nofun

theorem offsetOperand_ne_unrecognized (t : Option Text) (o : Opcode) (symtab : Symtab) (addr a : Nat)
    (x : Option Text) : offsetOperand t o symtab addr ≠ .error (.unrecognizedOpcode a x) := by
  unfold offsetOperand
  repeat' split
  all_goals nofun

theorem fillOperand_ne_unrecognized (t : Option Text) (symtab : Symtab) (addr a : Nat)
    (x : Option Text) : fillOperand t symtab addr ≠ .error (.unrecognizedOpcode a x) := by
  unfold fillOperand
  repeat' split
  all_goals nofun

theorem exceptBind_ne_error {ε α β : Type} {x : Except ε α} {f : α → Except ε β} {e : ε}
    (hx : x ≠ .error e) (hf : ∀ a, f a ≠ .error e) : x.bind f ≠ .error e := by
  cases x with
  | error e' => exact fun h => hx (congrArg Except.error (Except.error.inj h))
  | ok a => exact hf a

theorem exceptMap_ne_error {ε α β : Type} {x : Except ε α} {f : α → β} {e : ε}
    (hx : x ≠ .error e) : x.map f ≠ .error e := by
  cases x with
  | error e' => exact fun h => hx (congrArg Except.error (Except.error.inj h))
  | ok a => nofun

theorem encWithRegs_ne_unrecognized (o : Opcode) (r : Record) (symtab : Symtab) (addr : Nat)
    (ra rb : Reg) (a : Nat) (x : Option Text) :
    encWithRegs o r symtab addr ra rb ≠ .error (.unrecognizedOpcode a x) := by
  unfold encWithRegs
  split
  · exact exceptMap_ne_error (regOperand_ne_unrecognized _ _ _ _)
  · exact exceptMap_ne_error (offsetOperand_ne_unrecognized _ _ _ _ _ _)
  · nofun
  · nofun

theorem encRecord_ne_unrecognized {r : Record} {op : SourceOp}
    (h : SourceOp.ofText? r.opcode = some op) (symtab : Symtab) (addr a : Nat) (x : Option Text) :
    encRecord r symtab addr ≠ .error (.unrecognizedOpcode a x) := by
  cases op with
  | fill =>
    rw [encRecord_fill h]
    exact fillOperand_ne_unrecognized _ _ _ _ _
  | instr o =>
    by_cases hf : o.format = .oType
    · rw [encRecord_oType h hf]
      nofun
    · rw [encRecord_of_operands h hf]
      exact exceptBind_ne_error (regOperand_ne_unrecognized _ _ _ _) fun ra =>
        exceptBind_ne_error (regOperand_ne_unrecognized _ _ _ _) fun rb =>
          encWithRegs_ne_unrecognized o r symtab addr ra rb a x

/-- Settles O49: the nine texts are the spellings of the operations, and no operand rule gives the
error. -/
theorem otherOpcodeTextIsUnrecognized : Obligations.OtherOpcodeTextIsUnrecognized := by
  intro r symtab addr
  constructor
  · intro hother
    cases hop : SourceOp.ofText? r.opcode with
    | none => exact encRecord_of_unknown hop symtab addr
    | some op =>
      have htext := SourceOp.ofText?_eq_some_iff.1 hop
      have hmem : String.ofList op.text ∈ sourceOps.map fun op => String.ofList op.text :=
        List.mem_map_of_mem op.mem_sourceOps
      exact absurd (htext.trans (congrArg some String.toList_ofList.symm)) (hother _ hmem)
  · rintro ⟨t, ht, hop⟩ a x
    have hmem : t ∈ sourceOps.map fun op => String.ofList op.text := ht
    obtain ⟨op, -, rfl⟩ := List.mem_map.1 hmem
    rw [String.toList_ofList] at hop
    exact encRecord_ne_unrecognized (SourceOp.ofText?_eq_some_iff.2 hop) symtab addr a x

end Sys2Proof.Machine

/-! Proofs about 30_encoding.md Part B: pass 1 (R96 to R98) and the driver (R116 to R118). -/

namespace Sys2Proof.Machine

/-! ## The label an address has -/

theorem labelAt_eq_bind (recs : List Record) (addr : Nat) :
    labelAt recs addr = recs[addr]?.bind Record.definedLabel := by
  unfold labelAt
  cases recs[addr]? <;> rfl

theorem lt_length_of_labelAt {recs : List Record} {addr : Nat} {l : Text}
    (h : labelAt recs addr = some l) : addr < recs.length := by
  rw [labelAt_eq_bind] at h
  obtain ⟨r, hr, -⟩ := Option.bind_eq_some_iff.1 h
  exact (List.getElem?_eq_some_iff.1 hr).1

theorem labelAt_append_left {done : List Record} {addr : Nat} (h : addr < done.length)
    (rest : List Record) : labelAt (done ++ rest) addr = labelAt done addr := by
  rw [labelAt_eq_bind, labelAt_eq_bind, List.getElem?_append_left h]

theorem labelAt_append_length (done : List Record) (r : Record) (rest : List Record) :
    labelAt (done ++ r :: rest) done.length = r.definedLabel := by
  rw [labelAt_eq_bind, List.getElem?_append_right Nat.le.refl, Nat.sub_self]
  rfl

/-! ## Pass 1 on one record -/

theorem pass1Record_of_no_label {r : Record} (h : r.definedLabel = none) (st : EncoderState) :
    pass1Record st r = .ok { st with currentAddress := st.currentAddress + 1 } := by
  simp only [pass1Record, h]

theorem pass1Record_of_new_label {r : Record} {l : Text} {st : EncoderState}
    (h : r.definedLabel = some l) (hl : symtabFind st.symtab l = none) :
    pass1Record st r = .ok { symtab := (l, st.currentAddress) :: st.symtab,
                             currentAddress := st.currentAddress + 1 } := by
  simp only [pass1Record, h, hl]

theorem pass1Record_of_old_label {r : Record} {l : Text} {st : EncoderState} {addr : Nat}
    (h : r.definedLabel = some l) (hl : symtabFind st.symtab l = some addr) :
    pass1Record st r = .error (.duplicateLabel st.currentAddress l) := by
  simp only [pass1Record, h, hl]

theorem symtabFind_cons (k : Text) (a : Nat) (symtab : Symtab) (l : Text) :
    symtabFind ((k, a) :: symtab) l = if k = l then some a else symtabFind symtab l := rfl

/-! ## The invariant of pass 1 -/

/-- What pass 1 knows after the records `done`: their number, and the address of each label they
define. The table is a function, so no label is defined twice. -/
structure EncoderState.Describes (st : EncoderState) (done : List Record) : Prop where
  currentAddress_eq : st.currentAddress = done.length
  symtabFind_iff : ∀ (l : Text) (addr : Nat),
    symtabFind st.symtab l = some addr ↔ labelAt done addr = some l

theorem EncoderState.describes_nil :
    EncoderState.Describes { symtab := [], currentAddress := 0 } [] where
  currentAddress_eq := rfl
  symtabFind_iff := fun _ _ => by simp [symtabFind, labelAt]

theorem EncoderState.Describes.addr_unique {st : EncoderState} {done : List Record}
    (h : st.Describes done) {l : Text} {i j : Nat} (hi : labelAt done i = some l)
    (hj : labelAt done j = some l) : i = j :=
  Option.some.inj (((h.symtabFind_iff l i).2 hi).symm.trans ((h.symtabFind_iff l j).2 hj))

/-- The labels after one more record: those before it, and its own at the next address. -/
theorem labelAt_snoc_iff {done : List Record} {r : Record} {addr : Nat} {l : Text} :
    labelAt (done ++ [r]) addr = some l ↔
      labelAt done addr = some l ∨ (addr = done.length ∧ r.definedLabel = some l) := by
  constructor
  · intro h
    have hlt := lt_length_of_labelAt h
    rw [List.length_append, List.length_singleton] at hlt
    obtain hlt | rfl := Nat.lt_succ_iff_lt_or_eq.1 hlt
    · exact .inl (labelAt_append_left hlt [r] ▸ h)
    · exact .inr ⟨rfl, labelAt_append_length done r [] ▸ h⟩
  · rintro (h | ⟨rfl, h⟩)
    · rw [labelAt_append_left (lt_length_of_labelAt h), h]
    · rw [labelAt_append_length, h]

theorem EncoderState.Describes.snoc {st st' : EncoderState} {done : List Record} {r : Record}
    (h : st.Describes done) (hst : pass1Record st r = .ok st') : st'.Describes (done ++ [r]) := by
  have haddr : st.currentAddress + 1 = (done ++ [r]).length := by
    rw [h.currentAddress_eq, List.length_append, List.length_singleton]
  cases hr : r.definedLabel with
  | none =>
    cases (pass1Record_of_no_label hr st).symm.trans hst
    refine ⟨haddr, fun l addr => ?_⟩
    rw [labelAt_snoc_iff, hr, h.symtabFind_iff]
    simp
  | some k =>
    cases hk : symtabFind st.symtab k with
    | some a => cases (pass1Record_of_old_label hr hk).symm.trans hst
    | none =>
      cases (pass1Record_of_new_label hr hk).symm.trans hst
      refine ⟨haddr, fun l addr => ?_⟩
      rw [labelAt_snoc_iff, hr, ← h.symtabFind_iff, symtabFind_cons, h.currentAddress_eq]
      by_cases hkl : k = l
      · subst hkl
        simp [hk, eq_comm]
      · simp [hkl]

/-- The record at `addr` defines `l` as an earlier one does, and no record before it defines a label
again. -/
def FirstDuplicate (recs : List Record) (addr : Nat) (l : Text) : Prop :=
  labelAt recs addr = some l ∧ (∃ j < addr, labelAt recs j = some l) ∧
    ∀ k < addr, ∀ l', labelAt recs k = some l' → ∀ j < k, labelAt recs j ≠ some l'

theorem FirstDuplicate.unique {recs : List Record} {a b : Nat} {l m : Text}
    (ha : FirstDuplicate recs a l) (hb : FirstDuplicate recs b m) : a = b ∧ l = m := by
  obtain ⟨hal, ⟨i, hia, hil⟩, hfirsta⟩ := ha
  obtain ⟨hbm, ⟨j, hjb, hjm⟩, hfirstb⟩ := hb
  obtain hlt | rfl | hgt := Nat.lt_trichotomy a b
  · exact absurd hil (hfirstb a hlt l hal i hia)
  · exact ⟨rfl, Option.some.inj (hal.symm.trans hbm)⟩
  · exact absurd hjm (hfirsta b hgt m hbm j hjb)

theorem EncoderState.Describes.not_firstDuplicate {st : EncoderState} {recs : List Record}
    (h : st.Describes recs) (addr : Nat) (l : Text) : ¬ FirstDuplicate recs addr l := by
  rintro ⟨haddr, ⟨j, hlt, hj⟩, -⟩
  exact absurd (h.addr_unique hj haddr) (Nat.ne_of_lt hlt)

/-- A label that is in the table when its record is met is the first to be defined again. -/
theorem EncoderState.Describes.firstDuplicate {st : EncoderState} {done : List Record} {r : Record}
    {l : Text} {j : Nat} (h : st.Describes done) (hr : r.definedLabel = some l)
    (hj : symtabFind st.symtab l = some j) (rest : List Record) :
    FirstDuplicate (done ++ r :: rest) done.length l := by
  have hdone {k : Nat} (hk : k < done.length) := labelAt_append_left hk (r :: rest)
  have hj' := (h.symtabFind_iff l j).1 hj
  have hlt := lt_length_of_labelAt hj'
  refine ⟨(labelAt_append_length done r rest).trans hr, ⟨j, hlt, (hdone hlt).trans hj'⟩, ?_⟩
  intro k hk l' hkl i hik hil
  rw [hdone hk] at hkl
  rw [hdone (Nat.lt_trans hik hk)] at hil
  exact absurd (h.addr_unique hil hkl) (Nat.ne_of_lt hik)

/-! ## Pass 1 -/

theorem pass1From_cons_of_ok {st st' : EncoderState} {r : Record} (h : pass1Record st r = .ok st')
    (rs : List Record) : pass1From st (r :: rs) = pass1From st' rs := by
  simp only [pass1From, h]

theorem pass1From_cons_of_error {st : EncoderState} {r : Record} {e : AsmError}
    (h : pass1Record st r = .error e) (rs : List Record) : pass1From st (r :: rs) = .error e := by
  simp only [pass1From, h]

/-- Pass 1 either describes all records, or stops at the first that defines a label again. -/
theorem pass1From_cases {st : EncoderState} {done : List Record} (h : st.Describes done)
    (rest : List Record) :
    (∃ st', pass1From st rest = .ok st' ∧ st'.Describes (done ++ rest)) ∨
    ∃ addr l, pass1From st rest = .error (.duplicateLabel addr l) ∧
      FirstDuplicate (done ++ rest) addr l := by
  induction rest generalizing st done with
  | nil => exact .inl ⟨st, rfl, (List.append_nil done).symm ▸ h⟩
  | cons r rest ih =>
    cases hst : pass1Record st r with
    | ok st' =>
      have hrest := ih (h.snoc hst)
      rw [List.append_assoc, List.singleton_append] at hrest
      rw [pass1From_cons_of_ok hst]
      exact hrest
    | error e =>
      rw [pass1From_cons_of_error hst]
      cases hr : r.definedLabel with
      | none => cases (pass1Record_of_no_label hr st).symm.trans hst
      | some l =>
        cases hl : symtabFind st.symtab l with
        | none => cases (pass1Record_of_new_label hr hl).symm.trans hst
        | some j =>
          cases (pass1Record_of_old_label hr hl).symm.trans hst
          exact .inr ⟨_, l, rfl, h.currentAddress_eq ▸ h.firstDuplicate hr hl rest⟩

theorem pass1_cases (recs : List Record) :
    (∃ st : EncoderState, pass1 recs = .ok (st.symtab, st.currentAddress) ∧ st.Describes recs) ∨
    ∃ addr l, pass1 recs = .error (.duplicateLabel addr l) ∧ FirstDuplicate recs addr l := by
  unfold pass1
  obtain ⟨st, h, hst⟩ | ⟨addr, l, h, hdup⟩ := pass1From_cases EncoderState.describes_nil recs
  · exact .inl ⟨st, by rw [h], hst⟩
  · exact .inr ⟨addr, l, by rw [h], hdup⟩

/-- Settles O40: a pass 1 that succeeds ends in a state that describes all records. -/
theorem symbolTableHoldsEveryLabelsAddress : Obligations.SymbolTableHoldsEveryLabelsAddress := by
  intro recs symtab n h
  obtain ⟨st, hok, hst⟩ | ⟨addr, l, herr, -⟩ := pass1_cases recs
  · cases hok.symm.trans h
    exact ⟨hst.currentAddress_eq, hst.symtabFind_iff⟩
  · cases herr.symm.trans h

/-- Settles O41: there is at most one first duplicate, and none where pass 1 succeeds. -/
theorem duplicateLabelIsReportedAtItsSecondRecord :
    Obligations.DuplicateLabelIsReportedAtItsSecondRecord := by
  intro recs e
  obtain ⟨st, hok, hst⟩ | ⟨addr, l, herr, hdup⟩ := pass1_cases recs
  · rw [hok]
    refine ⟨nofun, ?_⟩
    rintro ⟨addr, l, -, hdup⟩
    exact absurd hdup (hst.not_firstDuplicate addr l)
  · rw [herr]
    constructor
    · rintro ⟨⟩
      exact ⟨addr, l, rfl, hdup⟩
    · rintro ⟨addr', l', rfl, hdup'⟩
      obtain ⟨rfl, rfl⟩ := FirstDuplicate.unique hdup hdup'
      rfl

/-! ## The driver -/

theorem pass2From_cons_eq_error_iff {symtab : Symtab} {addr : Nat} {r : Record} {rs : List Record}
    {e : AsmError} : pass2From symtab addr (r :: rs) = .error e ↔
      encRecord r symtab addr = .error e ∨
        (∃ w, encRecord r symtab addr = .ok w) ∧ pass2From symtab (addr + 1) rs = .error e := by
  rw [pass2From]
  cases encRecord r symtab addr with
  | error e' => simp
  | ok w => cases pass2From symtab (addr + 1) rs <;> simp

/-- Pass 2 fails exactly with the error of the first record on which the encoder fails. -/
theorem pass2From_eq_error_iff {symtab : Symtab} {addr : Nat} {recs : List Record} {e : AsmError} :
    pass2From symtab addr recs = .error e ↔ ∃ i r, recs[i]? = some r ∧
      encRecord r symtab (addr + i) = .error e ∧
      ∀ j < i, ∀ r', recs[j]? = some r' → ∃ w, encRecord r' symtab (addr + j) = .ok w := by
  induction recs generalizing addr with
  | nil => simp [pass2From]
  | cons r rs ih =>
    rw [pass2From_cons_eq_error_iff]
    constructor
    · rintro (herr | ⟨hok, hrest⟩)
      · exact ⟨0, r, rfl, herr, nofun⟩
      · obtain ⟨i, r', hr', herr, hbefore⟩ := ih.1 hrest
        refine ⟨i + 1, r', hr', ?_, fun j hj r'' hr'' => ?_⟩
        · rwa [← Nat.succ_add_eq_add_succ addr i]
        · cases j with
          | zero => cases hr''; exact hok
          | succ j =>
            rw [← Nat.succ_add_eq_add_succ addr j]
            exact hbefore j (Nat.lt_of_succ_lt_succ hj) r'' hr''
    · rintro ⟨i, r', hr', herr, hbefore⟩
      cases i with
      | zero => cases hr'; exact .inl herr
      | succ i =>
        have hfirst := hbefore 0 (Nat.zero_lt_succ i) r rfl
        refine .inr ⟨hfirst, ih.2 ⟨i, r', hr', ?_, fun j hj r'' hr'' => ?_⟩⟩
        · rwa [Nat.succ_add_eq_add_succ addr i]
        · rw [Nat.succ_add_eq_add_succ addr j]
          exact hbefore (j + 1) (Nat.succ_lt_succ hj) r'' hr''

theorem assemble_eq_error_iff {recs : List Record} {e : AsmError} : assemble recs = .error e ↔
    pass1 recs = .error e ∨
      ∃ symtab n, pass1 recs = .ok (symtab, n) ∧ pass2From symtab 0 recs = .error e := by
  unfold assemble
  rcases pass1 recs with e' | ⟨symtab, n⟩ <;> simp

/-- Settles O43: the driver is pass 1, then pass 2 from address 0 with pass 1's table. -/
theorem firstAssemblyErrorIsTheResult : Obligations.FirstAssemblyErrorIsTheResult := by
  intro recs e
  simp only [assemble_eq_error_iff, pass2From_eq_error_iff, Nat.zero_add]

/-! ## The output and the loader -/

theorem loadLine_printWord (index : Nat) (w : Word) : loadLine index (printWord w) = .ok w := by
  have hin : wordInRange w.toInt = true := (wordInRange_iff _).2 (word_toInt_range w)
  have hwrap : wrap32 w.toInt = w := BitVec.ofInt_toInt
  simp only [loadLine, parseInt?_printWord, hin, if_true, hwrap]

theorem loadLinesFrom_printWord (index : Nat) (ws : List Word) :
    loadLinesFrom index (ws.map printWord) = .ok ws := by
  induction ws generalizing index with
  | nil => rfl
  | cons w ws ih => simp only [List.map_cons, loadLinesFrom, loadLine_printWord, ih]

theorem load_of_tooLarge {lines : List Text} (h : 65536 < lines.length) :
    load lines = .error (.imageTooLarge lines.length) :=
  if_pos h

theorem load_printWord {ws : List Word} (h : ws.length ≤ 65536) :
    load (ws.map printWord) = .ok (State.ofImage ws) := by
  have hfits : ¬ Config.memCapacity < (ws.map printWord).length := by
    rw [List.length_map]
    exact Nat.not_lt.2 h
  simp only [load, if_neg hfits, loadLinesFrom_printWord]

theorem exists_words_of_assembleOutput {recs : List Record} {texts : List Text}
    (h : assembleOutput recs = .ok texts) :
    ∃ ws, assemble recs = .ok ws ∧ texts = ws.map printWord := by
  unfold assembleOutput at h
  cases hws : assemble recs with
  | error e => simp [hws] at h
  | ok ws => exact ⟨ws, rfl, by simpa [hws] using h.symm⟩

/-- Settles O39: the words of the records are printed, and the loader reads each printed word back
(`load_printWord`). -/
theorem assembledOutputLoadsWordForRecord : Obligations.AssembledOutputLoadsWordForRecord := by
  intro recs texts h
  obtain ⟨ws, hws, rfl⟩ := exists_words_of_assembleOutput h
  obtain ⟨symtab, n, hpass1, hlen, hwords⟩ := (assembledWordsAreTheRecordsEncodings recs ws).1 hws
  have htexts : (ws.map printWord).length = recs.length := (List.length_map _).trans hlen
  refine ⟨symtab, n, hpass1, htexts, fun hfits => ?_, fun hlarge => ?_⟩
  · refine ⟨_, load_printWord (hlen ▸ hfits), hlen, rfl, rfl, fun i r hi => ?_⟩
    obtain ⟨w, hw, henc⟩ := hwords i r hi
    obtain ⟨hlt, rfl⟩ := List.getElem?_eq_some_iff.1 hw
    exact ⟨_, henc, State.memRead_ofImage ws hlt⟩
  · rw [load_of_tooLarge (htexts ▸ hlarge), htexts]

end Sys2Proof.Machine

/-! Proofs about 40_cycle.md: the fetch (R131), the execute stage (R130, R133), and what a completed
step writes (R135, R136). -/

namespace Sys2Proof.Machine

/-! ## The fetch and the execute stage -/

/-- Settles O18: the fetch is the memory read at `pc`, and the step then executes what it decodes to. -/
theorem stepRunsTheDecodedInstruction : Obligations.StepRunsTheDecodedInstruction :=
  fun _ _ hr hread => step_of_fetch hr hread

/-- Settles O19: at or past `lwc` the fetch is not defined (decision D4), and the step raises. -/
theorem fetchPastTheLoadedWordsFaults : Obligations.FetchPastTheLoadedWordsFaults :=
  fun s hr hpc => step_of_fetch_none hr ((State.fetch_eq_none_iff s).2 hpc)

/-! ## What a completed step writes -/

/-- Settles O23: by `exec_cases` an unfaulted step executed an instruction that writes at most its
destination register and its stored word, so it is left to read the memory around that word. -/
theorem completedStepWritesOnlyItsEffects : Obligations.CompletedStepWritesOnlyItsEffects := by
  intro s t w hr hf hstep hun
  have hexec := (step_of_fetch hr hf).symm.trans hstep
  obtain ⟨f, v, hfault, -⟩ | ⟨-, regs, pc, mem, hdone, hregs, hmem⟩ := exec_cases (decode w) s
  · cases hfault.symm.trans hexec
    exact absurd rfl (hun _)
  · cases hdone.symm.trans hexec
    refine ⟨rfl, rfl, hregs, fun a ha => ?_, by rw [hr]⟩
    obtain rfl | ⟨ea, v, hea, h0, hlt, rfl⟩ := hmem
    · exact State.memRead_congr rfl rfl a
    · have hne : a ≠ ea := fun e => ha (e ▸ hea)
      exact (State.memRead_put s h0 hlt v a).trans (if_neg hne)

end Sys2Proof.Machine

/-! Proofs about 41_alu.md: add (R140) and nor (R141). -/

namespace Sys2Proof.Machine

/-! ## The effect that add and nor share -/

/-- The state after an instruction of 41_alu.md whose result is `v`. -/
def State.afterAlu (s : State) (d : Reg) (v : Word) : State :=
  { s.writeReg d v with pc := s.pc + 1, count := s.count + 1 }

theorem exec_add (a b d : Reg) (s : State) :
    exec (.add a b d) s = .next (s.afterAlu d (aluAdd (s.readReg a) (s.readReg b))) :=
  execAdd_eq a b d s

theorem exec_nor (a b d : Reg) (s : State) :
    exec (.nor a b d) s = .next (s.afterAlu d (aluNor (s.readReg a) (s.readReg b))) :=
  execNor_eq a b d s

theorem State.readReg_afterAlu (s : State) (d : Reg) (v : Word) : (s.afterAlu d v).readReg d = v :=
  (State.readReg_writeReg s d d v).trans (if_pos rfl)

theorem State.afterAlu_frame (s : State) (d : Reg) (v : Word) :
    s.SameRegsBut d (s.afterAlu d v) ∧ s.SameMemory (s.afterAlu d v) ∧
      (s.afterAlu d v).pc = s.pc + 1 ∧ s.Counted (s.afterAlu d v) :=
  ⟨fun r hr => (State.readReg_writeReg s d r v).trans (if_neg hr), State.memRead_congr rfl rfl,
    rfl, rfl, rfl, rfl⟩

/-! ## The two results -/

/-- Signed or unsigned, the wrapped sum is the sum of bit vectors. -/
theorem aluAdd_eq_add (x y : Word) : aluAdd x y = x + y := by
  rw [aluAdd, wrap32, BitVec.ofInt_add, BitVec.ofInt_toInt, BitVec.ofInt_toInt]

theorem toNat_aluAdd (x y : Word) : (aluAdd x y).toNat = (x.toNat + y.toNat) % 2 ^ 32 := by
  rw [aluAdd_eq_add, BitVec.toNat_add]

theorem getLsbD_aluNor (x y : Word) {k : Nat} (hk : k < 32) :
    (aluNor x y).getLsbD k = !(x.getLsbD k || y.getLsbD k) := by
  rw [aluNor, BitVec.getLsbD_not, BitVec.getLsbD_or, decide_eq_true hk, Bool.true_and]

/-- With one source value nor is NOT, so `~v = -v - 1` (R141). -/
theorem toInt_aluNor_self (x : Word) : (aluNor x x).toInt = -x.toInt - 1 := by
  have hx := x.isLt
  rw [aluNor, BitVec.or_self, BitVec.toInt_eq_toNat_cond, BitVec.toInt_eq_toNat_cond, BitVec.toNat_not]
  omega

/-! ## Assembling an R-type record -/

theorem encRecord_eq_packR {r : Record} {o : Opcode} {a b d : Reg}
    (h : SourceOp.ofText? r.opcode = some (.instr o)) (hf : o.format = .rType)
    (ha : NamesReg r.op0 a) (hb : NamesReg r.op1 b) (hd : NamesReg r.op2 d) (symtab : Symtab)
    (addr : Nat) : encRecord r symtab addr = .ok (packR o a b d) := by
  obtain ⟨w, hw, rfl, -⟩ := (packingFollowsEachFormat r symtab addr o a b d 0 h).1 hf ha hb hd
  exact hw

/-! ## add and nor -/

/-- Settles O9: add completes with `aluAdd`, which wraps (`toNat_aluAdd`), in its destination. -/
theorem addWritesTheWrappedSum : Obligations.AddWritesTheWrappedSum := by
  refine ⟨fun a b d s => ⟨_, exec_add a b d s, ?result, ?unsigned, State.afterAlu_frame s d _⟩,
    fun _ _ _ => rfl, fun _ _ _ _ symtab addr _ _ _ ha hb hd => ?assembles, rfl, fun s h1 h2 => ?worked⟩
  case result => exact State.readReg_afterAlu s d _
  case unsigned => rw [State.readReg_afterAlu, toNat_aluAdd]
  case assembles =>
    exact encRecord_eq_packR (SourceOp.ofText?_text (.instr .add)) rfl ha hb hd symtab addr
  case worked =>
    refine ⟨_, exec_add 1 2 3 s, ?_⟩
    rw [State.readReg_afterAlu, h1, h2]
    decide

/-- Settles O10: nor completes with `aluNor` in its destination; its bits (`getLsbD_aluNor`), and its
value when both sources are one register (`toInt_aluNor_self`). -/
theorem norWritesTheBitwiseNor : Obligations.NorWritesTheBitwiseNor := by
  refine ⟨fun a b d s => ⟨_, exec_nor a b d s, ?result, fun k hk => ?bits, fun hab => ?complement,
    State.afterAlu_frame s d _⟩,
    fun _ _ _ => rfl, fun _ _ _ _ symtab addr _ _ _ ha hb hd => ?assembles, rfl, fun s h1 h2 => ?worked⟩
  case result => exact State.readReg_afterAlu s d _
  case bits => rw [State.readReg_afterAlu, getLsbD_aluNor _ _ hk]
  case complement => rw [State.readReg_afterAlu, hab, toInt_aluNor_self]
  case assembles =>
    exact encRecord_eq_packR (SourceOp.ofText?_text (.instr .nor)) rfl ha hb hd symtab addr
  case worked =>
    refine ⟨_, exec_nor 1 2 3 s, ?_⟩
    rw [State.readReg_afterAlu, h1, h2]
    decide

end Sys2Proof.Machine

/-! Proofs about 42_load_store.md: lw (R150), sw (R151) and the width of their address sum (R150, D28). -/

namespace Sys2Proof.Machine

/-! ## The effects of lw and sw -/

/-- Where its address reads, lw has the effect of an instruction whose result is the loaded word. -/
theorem exec_lw_of_memRead {a : Reg} {off : Int} {s : State} {w : Word}
    (h : s.memRead (s.effectiveAddress a off) = some w) (b : Reg) :
    exec (.lw a b off) s = .next (s.afterAlu b w) :=
  execLw_inRange h b

theorem exec_lw_of_outOfRange {a : Reg} {off : Int} {s : State}
    (h : s.effectiveAddress a off < 0 ∨ (s.lwc : Int) ≤ s.effectiveAddress a off) (b : Reg) :
    exec (.lw a b off) s = .next (s.faultedBy .memAddrOutOfRange (s.effectiveAddress a off)) :=
  execLw_outOfRange ((State.memRead_eq_none_iff _ _).2 h) b

/-- The state after a store of `v` at the address `ea`. -/
def State.afterStore (s : State) (ea : Int) (v : Word) : State :=
  { s with mem := s.mem.put ea.toNat v, pc := s.pc + 1, count := s.count + 1 }

theorem exec_sw_of_inBounds {a : Reg} {off : Int} {s : State}
    (h : s.inBounds (s.effectiveAddress a off) = true) (b : Reg) :
    exec (.sw a b off) s = .next (s.afterStore (s.effectiveAddress a off) (s.readReg b)) :=
  execSw_inRange h b

theorem exec_sw_of_outOfRange {a : Reg} {off : Int} {s : State}
    (h : s.effectiveAddress a off < 0 ∨ (s.lwc : Int) ≤ s.effectiveAddress a off) (b : Reg) :
    exec (.sw a b off) s = .next (s.faultedBy .memAddrOutOfRange (s.effectiveAddress a off)) := by
  refine execSw_outOfRange (fun hin => ?_) b
  have hrange := (State.inBounds_iff _ _).1 hin
  omega

theorem State.memRead_afterStore {s : State} {ea : Int} (h : s.inBounds ea = true) (v : Word) (x : Int) :
    (s.afterStore ea v).memRead x = if x = ea then some v else s.memRead x := by
  obtain ⟨h0, hlt⟩ := (State.inBounds_iff s ea).1 h
  exact State.memRead_put s h0 hlt v x

theorem State.afterStore_frame {s : State} {ea : Int} (h : s.inBounds ea = true) (v : Word) :
    s.SameMemoryBut ea (s.afterStore ea v) ∧ s.SameRegs (s.afterStore ea v) ∧
      (s.afterStore ea v).pc = s.pc + 1 ∧ s.Counted (s.afterStore ea v) :=
  ⟨fun x hx => (State.memRead_afterStore h v x).trans (if_neg hx), State.readReg_congr rfl,
    rfl, rfl, rfl, rfl⟩

/-! ## lw and sw -/

/-- Settles O11: lw completes exactly where its address reads, with that word in its destination. -/
theorem lwLoadsOrFaults : Obligations.LwLoadsOrFaults := by
  refine ⟨fun a b off s h0 hlt => ?_, fun a b off s hout => exec_lw_of_outOfRange hout b⟩
  have hread : s.memRead (s.effectiveAddress a off) = some (s.mem.get (s.effectiveAddress a off).toNat) :=
    (State.memRead_eq_some_iff _ _ _).2 ⟨h0, hlt, rfl⟩
  refine ⟨_, exec_lw_of_memRead hread b, ?_, State.afterAlu_frame s b _⟩
  rw [State.readReg_afterAlu]
  exact hread

/-- Settles O12: sw completes exactly where its address is in bounds, and reads after it are
`State.memRead_afterStore`. -/
theorem swStoresOrFaults : Obligations.SwStoresOrFaults := by
  refine ⟨fun a b off s h0 hlt => ?_, fun a b off s hout => exec_sw_of_outOfRange hout b⟩
  have hin : s.inBounds (s.effectiveAddress a off) = true := (State.inBounds_iff _ _).2 ⟨h0, hlt⟩
  exact ⟨_, exec_sw_of_inBounds hin b, (State.memRead_afterStore hin _ _).trans (if_pos rfl),
    State.afterStore_frame hin _⟩

/-! ## The address sum in 32 bits -/

theorem wrap32_add_pow (v : Int) : wrap32 (v + 2 ^ 32) = wrap32 v := by
  rw [wrap32, wrap32, BitVec.ofInt_add]
  exact BitVec.add_zero _

/-- A sum less than 2^32 outside the signed 32-bit range wraps once, to the other end of it. -/
theorem toInt_wrap32_cases {v : Int} (hlo : -2 ^ 31 - 2 ^ 32 ≤ v) (hhi : v ≤ 2 ^ 31 - 1 + 2 ^ 32) :
    (wrap32 v).toInt = v ∨
    (v < -2 ^ 31 ∧ (wrap32 v).toInt = v + 2 ^ 32) ∨
    (2 ^ 31 - 1 < v ∧ (wrap32 v).toInt = v - 2 ^ 32) := by
  by_cases hbelow : v < -2 ^ 31
  · refine .inr (.inl ⟨hbelow, ?_⟩)
    rw [← wrap32_add_pow]
    exact toInt_wrap32 (by omega) (by omega)
  by_cases habove : 2 ^ 31 - 1 < v
  · refine .inr (.inr ⟨habove, ?_⟩)
    rw [← Int.sub_add_cancel v (2 ^ 32), wrap32_add_pow, Int.add_sub_cancel]
    exact toInt_wrap32 (by omega) (by omega)
  · exact .inl (toInt_wrap32 (by omega) (by omega))

/-- Settles O13: the sum of a register and a 16-bit offset leaves the 32-bit range by 2^15 at most, so
where it wraps (`toInt_wrap32_cases`) it lands far from the loaded words, as the unbounded sum does. -/
theorem effectiveAddressWrapIsUnobservable : Obligations.EffectiveAddressWrapIsUnobservable := by
  intro s a off hlwc hlo hhi
  have hbase_lo : -2 ^ 31 ≤ (s.readReg a).toInt := BitVec.le_toInt _
  have hbase_hi : (s.readReg a).toInt < 2 ^ 31 := BitVec.toInt_lt
  rw [State.effectiveAddress, Bool.eq_iff_iff, State.inBounds_iff, State.inBounds_iff]
  obtain hsame | ⟨hbelow, hwrap⟩ | ⟨habove, hwrap⟩ :=
    toInt_wrap32_cases (v := (s.readReg a).toInt + off) (by omega) (by omega)
  · rw [hsame]
    exact ⟨Iff.rfl, fun _ => rfl⟩
  · rw [hwrap]
    omega
  · rw [hwrap]
    omega

end Sys2Proof.Machine

/-! Proofs about 43_control.md: beq (R160), its loop on itself (R220), and jalr (R161). -/

namespace Sys2Proof.Machine

/-! ## The effects of beq and jalr -/

/-- The state after an instruction that completes with `pc` at `p` and writes nothing else. -/
def State.wentTo (s : State) (p : Nat) : State :=
  { s with pc := p, count := s.count + 1 }

theorem State.readReg_wentTo (s : State) (p : Nat) (r : Reg) : (s.wentTo p).readReg r = s.readReg r := rfl

theorem State.wentTo_frame (s : State) (p : Nat) :
    s.SameRegs (s.wentTo p) ∧ s.SameMemory (s.wentTo p) ∧ s.Counted (s.wentTo p) :=
  ⟨s.readReg_wentTo p, State.memRead_congr rfl rfl, rfl, rfl, rfl⟩

theorem State.writeReg_wentTo_frame (s : State) (d : Reg) (v : Word) (p : Nat) :
    s.SameRegsBut d ((s.writeReg d v).wentTo p) ∧ s.SameMemory ((s.writeReg d v).wentTo p) ∧
      s.Counted ((s.writeReg d v).wentTo p) :=
  ⟨fun r hr => (State.readReg_writeReg s d r v).trans (if_neg hr), State.memRead_congr rfl rfl,
    rfl, rfl, rfl⟩

theorem exec_beq_of_inBounds {s : State} {off : Int}
    (h : s.inBounds (s.advance.branchTarget off) = true) (a b : Reg) :
    exec (.beq a b off) s = .next (s.wentTo
      (if s.readReg a = s.readReg b then (s.advance.branchTarget off).toNat else s.pc + 1)) :=
  execBeq_inRange h a b

theorem exec_beq_of_outOfRange {s : State} {off : Int}
    (h : s.advance.branchTarget off < 0 ∨ (s.lwc : Int) ≤ s.advance.branchTarget off) (a b : Reg) :
    exec (.beq a b off) s =
      .next (s.faultedBy .branchTargetOutOfRange (s.advance.branchTarget off)) := by
  refine execBeq_outOfRange (fun hin => ?_) a b
  have hrange := (State.inBounds_iff _ _).1 hin
  omega

theorem exec_jalr_of_inBounds {s : State} {a : Reg} (h : s.jumpInBounds (s.jumpTarget a) = true)
    (b : Reg) : exec (.jalr a b) s = .next ((s.writeReg b s.advance.linkValue).wentTo
      (if a = b then s.advance.linkValue.toInt else s.jumpTarget a).toNat) :=
  execJalr_inRange h b

theorem exec_jalr_of_outOfRange {s : State} {a : Reg}
    (h : s.jumpTarget a < 0 ∨ (s.lwc : Int) < s.jumpTarget a) (b : Reg) :
    exec (.jalr a b) s = .next (s.faultedBy .jumpTargetOutOfRange (s.jumpTarget a)) := by
  refine execJalr_outOfRange (fun hin => ?_) b
  have hrange := (State.jumpInBounds_iff _ _).1 hin
  omega

/-- In states that meet the invariant the link is the successor's address, unwrapped, even at
`pc = lwc`, where no instruction stands. -/
theorem State.Inv.toInt_linkValue_advance {s : State} (h : s.Inv) :
    s.advance.linkValue.toInt = (s.pc : Int) + 1 := by
  have hcap : s.lwc ≤ 65536 := h.lwc_le_capacity
  have hpc := h.pc_le_lwc
  exact toInt_wrap32 (v := (s.pc : Int) + 1) (by omega) (by omega)

/-! ## beq and jalr -/

/-- Settles O14: beq completes exactly where its target is in bounds, taken or not (decision D6). -/
theorem beqBranchesOrFaults : Obligations.BeqBranchesOrFaults := by
  refine ⟨fun a b off s h0 hlt => ?_, fun a b off s hout => exec_beq_of_outOfRange hout a b⟩
  have hin : s.inBounds (s.advance.branchTarget off) = true := (State.inBounds_iff _ _).2 ⟨h0, hlt⟩
  refine ⟨_, exec_beq_of_inBounds hin a b, fun heq => ?taken, fun hne => ?notTaken, s.wentTo_frame _⟩
  case taken =>
    rw [if_pos heq]
    exact Int.toNat_of_nonneg h0
  case notTaken =>
    rw [if_neg hne]
    rfl

/-- Settles O15: jalr completes exactly where its target is at most `lwc`, and jumps to what the target
register holds after the link write. -/
theorem jalrLinksAndJumpsOrFaults : Obligations.JalrLinksAndJumpsOrFaults := by
  refine ⟨fun a b s h0 hle => ?_, fun a b s hout => exec_jalr_of_outOfRange hout b⟩
  have hin : s.jumpInBounds (s.jumpTarget a) = true := (State.jumpInBounds_iff _ _).2 ⟨h0, hle⟩
  have hlink (p : Nat) :
      ((s.writeReg b s.advance.linkValue).wentTo p).readReg b = s.advance.linkValue :=
    (State.readReg_writeReg s b b _).trans (if_pos rfl)
  refine ⟨_, exec_jalr_of_inBounds hin b, hlink _, fun hne => ?otherRegister,
    fun heq hinv => ?sameRegister, fun hinv => ?link, s.writeReg_wentTo_frame b _ _⟩
  case otherRegister =>
    rw [if_neg hne]
    exact Int.toNat_of_nonneg h0
  case sameRegister =>
    rw [if_pos heq, hinv.toInt_linkValue_advance]
    rfl
  case link => rw [hlink, hinv.toInt_linkValue_advance]

/-! ## A branch to itself -/

theorem State.branchTarget_advance_neg_one (s : State) : s.advance.branchTarget (-1) = s.pc := by
  show ((s.pc + 1 : Nat) : Int) + -1 = s.pc
  omega

/-- A taken beq with displacement -1 is in range because it was fetched from its own target. -/
theorem step_of_self_beq {s : State} {w : Word} {a b : Reg} (hr : s.run = .running)
    (hf : s.fetch = some w) (hd : decode w = .beq a b (-1)) (heq : s.readReg a = s.readReg b) :
    step s = .next (s.wentTo s.pc) := by
  obtain ⟨h0, hlt, -⟩ := (State.memRead_eq_some_iff s s.pc w).1 hf
  have hin : s.inBounds (s.advance.branchTarget (-1)) = true := by
    rw [s.branchTarget_advance_neg_one]
    exact (State.inBounds_iff _ _).2 ⟨h0, hlt⟩
  rw [step_of_fetch hr hf, hd, exec_beq_of_inBounds hin, if_pos heq, s.branchTarget_advance_neg_one,
    Int.toNat_natCast]

/-- Settles O28, by induction on the number of steps: one step is `step_of_self_beq`, and the counted
state it answers fetches the same branch. -/
theorem beqToItselfLoopsForever : Obligations.BeqToItselfLoopsForever := by
  intro s w a b hr hf hd heq k
  induction k generalizing s with
  | zero => rfl
  | succ k ih =>
    have hrest := ih (s.wentTo s.pc) hr hf heq
    rw [run_succ Sys2Proof.core k s _ (step_of_self_beq hr hf hd heq), hrest]
    show Host.Outcome.next { s with count := s.count + 1 + k } =
      .next { s with count := s.count + (k + 1) }
    rw [Nat.add_assoc, Nat.add_comm 1 k]

end Sys2Proof.Machine

/-! Proofs about 44_system.md: halt (R170) and noop (R171). -/

namespace Sys2Proof.Machine

/-! ## The effects of halt and noop -/

/-- noop goes to the next word and does nothing else. -/
theorem exec_noop (s : State) : exec .noop s = .next (s.wentTo (s.pc + 1)) :=
  execNoop_eq s

/-- halt has the effect of noop, and ends the run there. -/
theorem exec_halt (s : State) : exec .halt s = .next (s.wentTo (s.pc + 1)).enterHalted :=
  execHalt_eq s

theorem State.enterHalted_frame (s : State) : s.SameRegs s.enterHalted ∧ s.SameMemory s.enterHalted :=
  ⟨s.readReg_enterHalted, State.memRead_congr rfl rfl⟩

theorem step_enterHalted_ne_next (s u : State) : step s.enterHalted ≠ .next u := by
  rw [step_of_halted s.enterHalted_run]
  exact nofun

theorem runEnd?_enterHalted (cfg : Config) (s : State) :
    runEnd? cfg s.enterHalted = some (.halted s.enterHalted.snapshot s.count) :=
  runEnd?_eq_halted_iff.2 ⟨rfl, rfl, rfl⟩

/-! ## Words whose opcode field alone is read -/

theorem decode_of_halt_field {w : Word} (h : w.extractLsb' 22 3 = 6) : decode w = .halt := by
  have hop : Opcode.ofField (decodeFields w).opcode = .halt := congrArg Opcode.ofField h
  simp only [decode, Fields.toInstr, hop]

theorem decode_of_noop_field {w : Word} (h : w.extractLsb' 22 3 = 7) : decode w = .noop := by
  have hop : Opcode.ofField (decodeFields w).opcode = .noop := congrArg Opcode.ofField h
  simp only [decode, Fields.toInstr, hop]

/-! ## halt and noop -/

/-- Settles O16: halt ends in `State.enterHalted`, from which nothing steps
(`step_enterHalted_ne_next`) and whose snapshot the host gets (`runEnd?_enterHalted`). -/
theorem haltStopsTheMachine : Obligations.HaltStopsTheMachine := by
  refine ⟨fun s => ?effect, rfl, rfl, fun _ => decode_of_halt_field,
    fun _ _ _ _ symtab addr => ?assembles, fun s hr hpc hcount hf => ?worked⟩
  case effect =>
    obtain ⟨hregs, hmem, -⟩ := s.wentTo_frame (s.pc + 1)
    obtain ⟨hregs', hmem'⟩ := (s.wentTo (s.pc + 1)).enterHalted_frame
    exact ⟨_, exec_halt s, rfl, rfl, rfl, rfl, fun r => (hregs' r).trans (hregs r),
      fun a => (hmem' a).trans (hmem a), step_enterHalted_ne_next _, fun cfg => runEnd?_enterHalted cfg _⟩
  case assembles => exact encRecord_oType (SourceOp.ofText?_text (.instr .halt)) rfl symtab addr
  case worked =>
    have hstep : step s = .next (s.wentTo (s.pc + 1)).enterHalted := by
      rw [step_of_fetch hr hf, decode_of_halt_field rfl, exec_halt]
    exact ⟨_, hstep, rfl, congrArg (· + 1) hpc, congrArg (· + 1) hcount⟩

/-- Settles O17: noop answers `State.wentTo` the next word; past the last word that is `lwc`, where the
fetch is not defined. -/
theorem noopOnlyAdvances : Obligations.NoopOnlyAdvances := by
  refine ⟨fun s => ?effect, rfl, rfl, fun _ => decode_of_noop_field,
    fun _ _ _ _ symtab addr => ?assembles⟩
  case effect =>
    obtain ⟨hregs, hmem, hcounted⟩ := s.wentTo_frame (s.pc + 1)
    exact ⟨_, exec_noop s, rfl, hregs, hmem, hcounted,
      fun hlast => ⟨hlast, (State.fetch_eq_none_iff _).2 (Nat.le_of_eq hlast.symm)⟩⟩
  case assembles => exact encRecord_oType (SourceOp.ofText?_text (.instr .noop)) rfl symtab addr

end Sys2Proof.Machine

/-! Proofs about 60_exceptions.md: the fault table (R181, R183), the exit status (R189) and the cycle
limit (R194, D17). -/

namespace Sys2Proof.Machine

/-! ## The fault table -/

/-- Every row of the fault table is the fault that the step raises under the row's condition. -/
theorem step_of_raises {s : State} {f : RuntimeFault} {value : Int} (hr : s.run = .running)
    (h : s.Raises f value) : step s = .next (s.faultedBy f value) := by
  cases f with
  | fetchOutOfRange =>
    obtain ⟨hpc, rfl⟩ := h
    exact step_of_fetch_none hr ((State.fetch_eq_none_iff s).2 hpc)
  | memAddrOutOfRange =>
    obtain ⟨w, a, b, off, hf, hd | hd, rfl, hout⟩ := h
    · rw [step_of_fetch hr hf, hd]
      exact exec_lw_of_outOfRange hout b
    · rw [step_of_fetch hr hf, hd]
      exact exec_sw_of_outOfRange hout b
  | branchTargetOutOfRange =>
    obtain ⟨w, a, b, off, hf, hd, rfl, hout⟩ := h
    rw [step_of_fetch hr hf, hd]
    exact exec_beq_of_outOfRange hout a b
  | jumpTargetOutOfRange =>
    obtain ⟨w, a, b, hf, hd, rfl, hout⟩ := h
    rw [step_of_fetch hr hf, hd]
    exact exec_jalr_of_outOfRange hout b
  | invalidOpcode => exact h.elim

/-- Settles O21: a step to a faulted state met the table's condition (`runStateTransitions`), and each
condition of the table raises its fault (`step_of_raises`). -/
theorem stepFaultsExactlyByTheTable : Obligations.StepFaultsExactlyByTheTable := by
  refine fun s f value hr => ⟨fun h => ?_, step_of_raises hr⟩
  obtain ⟨-, hfaulted, -⟩ := runStateTransitions s _ h
  exact (hfaulted _ rfl).2.2

/-! ## The exit status -/

theorem RunEnd.exitStatus?_eq_zero_iff (e : RunEnd) :
    e.exitStatus? = some .zero ↔ ∃ f c, e = .halted f c := by
  cases e <;> simp [RunEnd.exitStatus?]

theorem RunEnd.exitStatus?_eq_nonZero_iff (e : RunEnd) :
    e.exitStatus? = some .nonZero ↔ ∃ record, e = .faulted record := by
  cases e <;> simp [RunEnd.exitStatus?]

theorem errorExitStatus?_of_error {ε α : Type} {x : Except ε α} {e : ε} (h : x = .error e) :
    errorExitStatus? x = some .nonZero := by
  rw [h, errorExitStatus?]

/-- Settles O55: the status of each end of a run, and of an error of the encoder or the loader. -/
theorem exitStatusIsZeroExactlyAtHalt : Obligations.ExitStatusIsZeroExactlyAtHalt :=
  ⟨fun _ _ _ => ⟨RunEnd.exitStatus?_eq_zero_iff _, RunEnd.exitStatus?_eq_nonZero_iff _⟩,
    fun _ _ => errorExitStatus?_of_error, fun _ _ => errorExitStatus?_of_error⟩

/-! ## The end of a run -/

/-- A run is over in a halted or a faulted state, and in a running one that has reached the limit. -/
theorem runEnd?_cases {cfg : Config} {s : State} {e : RunEnd} (h : runEnd? cfg s = some e) :
    (s.run = .halted ∧ e = .halted s.snapshot s.count) ∨
    (∃ record, s.run = .faulted record ∧ e = .faulted record) ∨
    (s.run = .running ∧ e = .nonTerminating s ∧ ∃ n, cfg.maxCycles = some n ∧ n ≤ s.count) := by
  cases hr : s.run with
  | halted => simpa [runEnd?, hr, eq_comm] using h
  | faulted record => simpa [runEnd?, hr, eq_comm] using h
  | running =>
    cases hc : cfg.maxCycles with
    | none => simp [runEnd?, hr, hc] at h
    | some n =>
      obtain ⟨hn, rfl⟩ : n ≤ s.count ∧ RunEnd.nonTerminating s = e := by simpa [runEnd?, hr, hc] using h
      exact .inr (.inr ⟨rfl, rfl, n, rfl, hn⟩)

theorem runEnd?_of_limit {cfg : Config} {n : Nat} {s : State} (hc : cfg.maxCycles = some n)
    (hr : s.run = .running) (hn : n ≤ s.count) : runEnd? cfg s = some (.nonTerminating s) := by
  simp [runEnd?, hr, hc, hn]

/-- A run ends in a state where it is over, or it has taken all its steps, every one of them counted,
and still goes on. -/
theorem runTrace_end_cases (cfg : Config) (fuel : Nat) (s : State) :
    (∃ u, runEnd? cfg u = some (runTrace cfg fuel s).2) ∨
    ∃ u, (runTrace cfg fuel s).2 = .notOver u ∧ runEnd? cfg u = none ∧ u.count = s.count + fuel := by
  induction fuel generalizing s with
  | zero =>
    cases he : runEnd? cfg s with
    | some e => exact .inl ⟨s, by rw [runTrace_of_end he, he]⟩
    | none => exact .inr ⟨s, by simp only [runTrace, he], he, rfl⟩
  | succ fuel ih =>
    cases he : runEnd? cfg s with
    | some e => exact .inl ⟨s, by rw [runTrace_of_end he, he]⟩
    | none =>
      obtain ⟨t, ht⟩ := step_of_running (runEnd?_eq_none_iff.1 he).1
      rw [runTrace_of_step he ht]
      cases het : runEnd? cfg t with
      | some e => exact .inl ⟨t, by rw [runTrace_of_end het, het]⟩
      | none =>
        have hcount := step_to_running_count ht (runEnd?_eq_none_iff.1 het).1
        refine (ih t).imp id fun ⟨u, hend, hgoes, hu⟩ => ⟨u, hend, hgoes, ?_⟩
        omega

/-! ## The cycle limit -/

/-- Settles O51: a run is over at once in a running state that has reached the limit, and it ends as
`NonTerminating` in no other (`runTrace_end_cases`, `runEnd?_cases`). -/
theorem cycleLimitStopsBeforeTheFetch : Obligations.CycleLimitStopsBeforeTheFetch := by
  refine ⟨fun cfg n fuel s hc hr hn => runTrace_of_end (runEnd?_of_limit hc hr hn) fuel,
    fun cfg fuel s u h => ?_⟩
  obtain ⟨v, hv⟩ | ⟨v, hv, -⟩ := runTrace_end_cases cfg fuel s
  · obtain ⟨-, he⟩ | ⟨_, -, he⟩ | ⟨hr, he, hlimit⟩ := runEnd?_cases (hv.trans (congrArg some h))
    · cases he
    · cases he
    · cases he
      exact ⟨hr, hlimit⟩
  · cases h.symm.trans hv

/-- Settles O52: a run that is not over has counted all its steps, and goes on only below the limit. -/
theorem cappedRunAlwaysEnds : Obligations.CappedRunAlwaysEnds := by
  intro cfg n fuel s u hc hn h
  obtain ⟨v, hv⟩ | ⟨v, -, hgoes, hcount⟩ := runTrace_end_cases cfg fuel s
  · obtain ⟨-, he⟩ | ⟨_, -, he⟩ | ⟨-, he, -⟩ := runEnd?_cases (hv.trans (congrArg some h)) <;> cases he
  · have hbelow := (runEnd?_eq_none_iff.1 hgoes).2 n hc
    omega

/-- A run that is over at once and halted is so under every configuration. -/
theorem runTrace_of_halted_end {cfg : Config} (cfg' : Config) {fuel : Nat} {s : State} {e : RunEnd}
    {trace : List Snapshot} {final : Snapshot} {c : Nat} (he : runEnd? cfg s = some e)
    (h : runTrace cfg fuel s = (trace, .halted final c)) :
    runTrace cfg' fuel s = (trace, .halted final c) := by
  cases (runTrace_of_end he fuel).symm.trans h
  exact runTrace_of_end (runEnd?_eq_halted_iff.2 (runEnd?_eq_halted_iff.1 he)) fuel

/-- A run that halts is the same run under every configuration whose limit is at least its count: it
takes each step from a count below the one it halts with (`runTrace_halted_report`). -/
theorem runTrace_of_halts_within {cfg cfg' : Config} {fuel : Nat} {s : State} {trace : List Snapshot}
    {final : Snapshot} {c : Nat} (hcap : ∀ n, cfg'.maxCycles = some n → c ≤ n)
    (h : runTrace cfg fuel s = (trace, .halted final c)) :
    runTrace cfg' fuel s = (trace, .halted final c) := by
  induction fuel generalizing s trace with
  | zero =>
    cases he : runEnd? cfg s with
    | some e => exact runTrace_of_halted_end cfg' he h
    | none => simp [runTrace, he] at h
  | succ fuel ih =>
    cases he : runEnd? cfg s with
    | some e => exact runTrace_of_halted_end cfg' he h
    | none =>
      have hr := (runEnd?_eq_none_iff.1 he).1
      obtain ⟨hcount, -⟩ := runTrace_halted_report hr h
      obtain ⟨t, ht⟩ := step_of_running hr
      rw [runTrace_of_step he ht, Prod.mk.injEq] at h
      obtain ⟨rfl, hend⟩ := h
      have hgoes : runEnd? cfg' s = none := by
        refine runEnd?_eq_none_iff.2 ⟨hr, fun n hn => ?_⟩
        have hle := hcap n hn
        rw [List.length_cons] at hcount
        omega
      rw [runTrace_of_step hgoes ht, ih (Prod.ext rfl hend)]

/-- Settles O53: the two configurations differ in the limit alone, which the halting count respects. -/
theorem capDoesNotChangeARunThatHaltsWithinIt :
    Obligations.CapDoesNotChangeARunThatHaltsWithinIt := by
  refine fun len n fuel s trace final c h hc => runTrace_of_halts_within (fun m hm => ?_) h
  cases hm
  exact hc

end Sys2Proof.Machine

/-! Proofs about 70_reset_and_hazards.md: the state after reset (R210), the loader of an image (R211,
R212), and the conditions under which a step raises no fault (R219). -/

namespace Sys2Proof.Machine

/-! ## Reset -/

/-- Settles O33: the state after reset is that of a loaded image, and its `pc` is at its `lwc`. -/
theorem resetIsTheEmptyImageAndMeetsInv : Obligations.ResetIsTheEmptyImageAndMeetsInv :=
  ⟨rfl, everyLoadedImageMeetsInv [] (Nat.zero_le _),
    fetchPastTheLoadedWordsFaults State.reset rfl (Nat.le_refl _)⟩

/-! ## Steps that raise no fault -/

/-- The state a step answers is unfaulted exactly where all that the step addresses is in range. -/
theorem unfaulted_iff_stepSafe {s t : State} (h : step s = .next t) : t.Unfaulted ↔ s.StepSafe := by
  obtain ⟨hunsafe, f, v, rfl, -⟩ | ⟨hsafe, w, -, -, -, hrun⟩ := step_raises_or_completes h
  · exact ⟨fun hun => absurd rfl (hun _), fun hsafe => absurd hsafe hunsafe⟩
  · refine ⟨fun _ => hsafe, fun _ record hfaulted => ?_⟩
    rw [hrun] at hfaulted
    split at hfaulted <;> cases hfaulted

/-- Settles O24: a running state has a step, and `unfaulted_iff_stepSafe` says which are unfaulted. -/
theorem stepIsUnfaultedExactlyInRange : Obligations.StepIsUnfaultedExactlyInRange := by
  refine fun s hr => ⟨fun ⟨_, hstep, hun⟩ => (unfaulted_iff_stepSafe hstep).1 hun, fun hsafe => ?_⟩
  obtain ⟨t, hstep⟩ := step_of_running hr
  exact ⟨t, hstep, (unfaulted_iff_stepSafe hstep).2 hsafe⟩

/-! ## One line of an image -/

/-- An image line is a well-formed integer in range, whose word is `w` (70_reset_and_hazards.md R211). -/
def LineHolds (line : Text) (w : Word) : Prop :=
  ∃ v : Int, parseInt? line = some v ∧ -(2 : Int) ^ 31 ≤ v ∧ v ≤ 2 ^ 31 - 1 ∧ w = wrap32 v

theorem lineHolds_iff_of_int {line : Text} {v : Int} (h : parseInt? line = some v) {w : Word} :
    LineHolds line w ↔ wordInRange v = true ∧ w = wrap32 v := by
  simp only [LineHolds, h, Option.some.injEq, exists_eq_left', wordInRange_iff, and_assoc]

theorem loadLine_of_not_int {line : Text} (h : parseInt? line = none) (index : Nat) :
    loadLine index line = .error (.badWordLine index line) := by
  simp only [loadLine, h]

theorem loadLine_of_int {line : Text} {v : Int} (h : parseInt? line = some v) (index : Nat) :
    loadLine index line =
      if wordInRange v then .ok (wrap32 v) else .error (.wordOutOfRange index line) := by
  simp only [loadLine, h]

theorem loadLine_of_outOfRange {line : Text} {v : Int} (h : parseInt? line = some v)
    (hout : v < -(2 : Int) ^ 31 ∨ 2 ^ 31 - 1 < v) (index : Nat) :
    loadLine index line = .error (.wordOutOfRange index line) := by
  have hrange : ¬ wordInRange v = true := fun hin => by
    obtain ⟨hlo, hhi⟩ := (wordInRange_iff v).1 hin
    omega
  rw [loadLine_of_int h, if_neg hrange]

theorem loadLine_eq_ok_iff {index : Nat} {line : Text} {w : Word} :
    loadLine index line = .ok w ↔ LineHolds line w := by
  cases h : parseInt? line with
  | none => simp [loadLine_of_not_int h, LineHolds, h]
  | some v =>
    rw [loadLine_of_int h, lineHolds_iff_of_int h]
    by_cases hin : wordInRange v = true <;> simp [hin, eq_comm]

/-! ## The lines of an image -/

theorem loadLinesFrom_cons_of_error {index : Nat} {line : Text} {e : InputError}
    (h : loadLine index line = .error e) (lines : List Text) :
    loadLinesFrom index (line :: lines) = .error e := by
  simp only [loadLinesFrom, h]

theorem loadLinesFrom_cons_of_ok {index : Nat} {line : Text} {w : Word}
    (h : loadLine index line = .ok w) (lines : List Text) :
    loadLinesFrom index (line :: lines) = (loadLinesFrom (index + 1) lines).map (w :: ·) := by
  simp only [loadLinesFrom, h]
  cases loadLinesFrom (index + 1) lines <;> rfl

/-- The lines load exactly where each of them holds the word at its place in the image. -/
theorem loadLinesFrom_eq_ok_iff {index : Nat} {lines : List Text} {img : List Word} :
    loadLinesFrom index lines = .ok img ↔ List.Forall₂ LineHolds lines img := by
  induction lines generalizing index img with
  | nil => simp [loadLinesFrom, eq_comm]
  | cons line lines ih =>
    rw [List.forall₂_cons_left_iff]
    constructor
    · intro h
      cases hline : loadLine index line with
      | error e => cases (loadLinesFrom_cons_of_error hline lines).symm.trans h
      | ok w =>
        rw [loadLinesFrom_cons_of_ok hline] at h
        obtain ⟨ws, hws, rfl⟩ := exceptMap_eq_ok h
        exact ⟨w, ws, loadLine_eq_ok_iff.1 hline, ih.1 hws, rfl⟩
    · rintro ⟨w, ws, hline, hws, rfl⟩
      rw [loadLinesFrom_cons_of_ok (loadLine_eq_ok_iff.2 hline), ih.2 hws]
      rfl

/-- After good lines only, a line that does not load is the one reported, at its own index. -/
theorem loadLinesFrom_of_bad_line {index : Nat} {good : List Text} {line : Text} {e : InputError}
    (hgood : ∀ l ∈ good, ∃ w, LineHolds l w) (hline : loadLine (index + good.length) line = .error e)
    (bad : List Text) : loadLinesFrom index (good ++ line :: bad) = .error e := by
  induction good generalizing index with
  | nil => exact loadLinesFrom_cons_of_error hline bad
  | cons l good ih =>
    obtain ⟨⟨w, hw⟩, hrest⟩ := List.forall_mem_cons.1 hgood
    have hline' : loadLine (index + 1 + good.length) line = .error e := by
      rwa [Nat.succ_add_eq_add_succ]
    rw [List.cons_append, loadLinesFrom_cons_of_ok (loadLine_eq_ok_iff.2 hw), ih hrest hline']
    rfl

/-! ## The loader -/

theorem load_of_fits {lines : List Text} (h : lines.length ≤ 65536) :
    load lines = (loadLinesFrom 0 lines).map State.ofImage := by
  have hfits : ¬ Config.memCapacity < lines.length := Nat.not_lt.2 h
  rw [load, if_neg hfits]
  cases loadLinesFrom 0 lines <;> rfl

/-- Settles O37: an image that fits loads exactly where its lines do (`loadLinesFrom_eq_ok_iff`). -/
theorem loaderAcceptsExactlyWellFormedImages : Obligations.LoaderAcceptsExactlyWellFormedImages := by
  intro lines s
  constructor
  · intro h
    by_cases hfits : lines.length ≤ 65536
    · rw [load_of_fits hfits] at h
      obtain ⟨img, himg, rfl⟩ := exceptMap_eq_ok h
      exact ⟨hfits, img, rfl, loadLinesFrom_eq_ok_iff.1 himg⟩
    · cases (load_of_tooLarge (Nat.not_le.1 hfits)).symm.trans h
  · rintro ⟨hfits, img, rfl, hlines⟩
    rw [load_of_fits hfits, loadLinesFrom_eq_ok_iff.2 hlines]
    rfl

theorem load_of_bad_line {good bad : List Text} {line : Text} {e : InputError}
    (hfits : (good ++ line :: bad).length ≤ 65536) (hgood : ∀ l ∈ good, ∃ w, LineHolds l w)
    (hline : loadLine good.length line = .error e) : load (good ++ line :: bad) = .error e := by
  rw [← Nat.zero_add good.length] at hline
  rw [load_of_fits hfits, loadLinesFrom_of_bad_line hgood hline]
  rfl

/-- Settles O38: the lines' number is checked first, and then the first line that does not load is
reported (`load_of_bad_line`), by why it does not. -/
theorem loaderReportsTheFirstBadLine : Obligations.LoaderReportsTheFirstBadLine := by
  refine ⟨fun _ => load_of_tooLarge, fun good bad line hfits hints => ?_⟩
  have hgood : ∀ l ∈ good, ∃ w, LineHolds l w := fun l hl => by
    obtain ⟨v, hv, hin⟩ := hints l hl
    exact ⟨wrap32 v, (lineHolds_iff_of_int hv).2 ⟨hin, rfl⟩⟩
  exact ⟨fun hnone => load_of_bad_line hfits hgood (loadLine_of_not_int hnone _),
    fun v hv hout => load_of_bad_line hfits hgood (loadLine_of_outOfRange hv hout _)⟩

end Sys2Proof.Machine

/-! The sample words of 95_test_vectors.md 2.1 and 2.2 (30_encoding.md R83 to R90). -/

namespace Sys2Proof.Machine

/-- Settles O7: every word is a numeral, so the slices of `decodeFields` and `Fields.toInstr` are
evaluated on it. -/
theorem sampleWordsDecodeAsTheSpecSays : Obligations.SampleWordsDecodeAsTheSpecSays := by
  unfold Obligations.SampleWordsDecodeAsTheSpecSays
  decide

end Sys2Proof.Machine
